-- ==== Sys2Proof/Word.lean ====
section
/-!
DEFINITION. Word.lean: the widths of the machine (10_state.md R21, R24, R25, R27; 30_encoding.md R91). Every value is an
unsigned integer of its stated width (00_scope.md R6).
-/

namespace Sys2Proof

/-- One byte: a general register, a timer, the stack pointer, a memory cell. -/
abbrev Byte := BitVec 8

/-- Sixteen bits: an instruction word, `I`, `pc`, a return address. -/
abbrev Word := BitVec 16

/-- A four-bit field of an instruction word. -/
abbrev Nibble := BitVec 4

/-- The twelve-bit address field `nnn` (R91). -/
abbrev Addr := BitVec 12

/-- The index of one of the sixteen general registers (R21): every value of a register field names one. -/
abbrev Reg := Fin 16

/-- The index of the flag register `VF` = `V[15]` (R22). -/
def vf : Reg := 15

end Sys2Proof
end

