-- ==== Sys2Proof/Config.lean ====
section
/-!
DEFINITION. Config.lean: what one instance of the machine fixes (the parameters of 00_scope.md R4) and the one free value
(the random byte, 42_load_imm.md R143). The defaults of R4 stand in Machine/Params.lean.
-/

namespace Sys2Proof

/-- The parameters of R4 that the spec lets a model choose. They are constant for the life of a machine (R37). -/
structure Params where
  /-- `MEM_SIZE`: number of bytes of memory -/
  memSize : Nat
  /-- `LOAD_OFFSET`: address of the first byte of a loaded image -/
  loadOffset : Nat
  /-- `STACK_DEPTH`: call-stack capacity in entries -/
  stackDepth : Nat
  /-- `DISPLAY_W`: display width in pixels -/
  displayW : Nat
  /-- `DISPLAY_H`: display height in pixels -/
  displayH : Nat
  /-- `SHL_FLAG_BIT`: which bit of the old `V[x]` the left shift copies into `V[15]` -/
  shlFlagBit : Nat
  /-- `JP_V0_ACCUMULATE`: whether the indexed jump adds its target to `pc` -/
  jpV0Accumulate : Bool
  /-- `GLYPH_TABLE`: the bytes of the font -/
  glyphTable : List Byte
  deriving DecidableEq, Repr

/-- `GLYPH_BASE`, address of glyph 0: fixed at 0 by the encoding of `Fx29` (R4). -/
def Config.glyphBase : Nat := 0

/-- `GLYPH_COUNT`: glyphs in the table, fixed (R4). -/
def Config.glyphCount : Nat := 16

/-- `GLYPH_BYTES`: bytes per glyph, fixed (R4). -/
def Config.glyphBytes : Nat := 5

/-- The random byte of the `n`-th draw (R143, R34(e)): a FREE VALUE, no body, so nothing can be proved of it
(notes/assumptions/4.md). -/
opaque Config.randByte : Nat → Byte

end Sys2Proof
end

