-- ==== Sys2Proof/Syntax.lean ====
section
/-!
DEFINITION. Syntax.lean: the instruction set, one constructor per row of spec/opcode_table.json (34 instructions and the
no-op space, 30_encoding.md R104, R105). Fields that an instruction ignores (R99, R101) and the word of a no-op (R100) stand
in the syntax, so that encoding loses no bit; no meaning reads them.
-/

namespace Sys2Proof

inductive Instr where
  /-- `00E0` (R171) -/
  | cls
  /-- `00EE` (R120) -/
  | ret
  /-- `1nnn` (R121) -/
  | jp (nnn : Addr)
  /-- `2nnn` (R122) -/
  | call (nnn : Addr)
  /-- `3xkk` (R130) -/
  | seImm (x : Reg) (kk : Byte)
  /-- `4xkk` (R131) -/
  | sneImm (x : Reg) (kk : Byte)
  /-- `5xyn`, `n` ignored (R132, R99) -/
  | seReg (x y : Reg) (n : Nibble)
  /-- `6xkk` (R140) -/
  | ldImm (x : Reg) (kk : Byte)
  /-- `7xkk` (R141) -/
  | addImm (x : Reg) (kk : Byte)
  /-- `8xy0` (R151) -/
  | ldReg (x y : Reg)
  /-- `8xy1` (R152) -/
  | or (x y : Reg)
  /-- `8xy2` (R153) -/
  | and (x y : Reg)
  /-- `8xy3` (R154) -/
  | xor (x y : Reg)
  /-- `8xy4` (R155) -/
  | addReg (x y : Reg)
  /-- `8xy5` (R156) -/
  | sub (x y : Reg)
  /-- `8xy6`, `y` ignored (R157, R101) -/
  | shr (x y : Reg)
  /-- `8xy7` (R158) -/
  | subn (x y : Reg)
  /-- `8xyE`, `y` ignored (R159, R101) -/
  | shl (x y : Reg)
  /-- `9xyn`, `n` ignored (R133, R99) -/
  | sneReg (x y : Reg) (n : Nibble)
  /-- `Annn` (R142) -/
  | ldI (nnn : Addr)
  /-- `Bnnn` (R123) -/
  | jpV0 (nnn : Addr)
  /-- `Cxkk` (R143) -/
  | rnd (x : Reg) (kk : Byte)
  /-- `Dxyn` (R172) -/
  | drw (x y : Reg) (n : Nibble)
  /-- `Ex9E` (R180) -/
  | skp (x : Reg)
  /-- `ExA1` (R181) -/
  | sknp (x : Reg)
  /-- `Fx07` (R190) -/
  | ldVxDT (x : Reg)
  /-- `Fx0A` (R182) -/
  | ldVxK (x : Reg)
  /-- `Fx15` (R191) -/
  | ldDTVx (x : Reg)
  /-- `Fx18` (R192) -/
  | ldSTVx (x : Reg)
  /-- `Fx1E` (R193) -/
  | addIVx (x : Reg)
  /-- `Fx29` (R194) -/
  | ldFVx (x : Reg)
  /-- `Fx33` (R195) -/
  | ldBVx (x : Reg)
  /-- `Fx55` (R196) -/
  | ldMemVx (x : Reg)
  /-- `Fx65` (R197) -/
  | ldVxMem (x : Reg)
  /-- every unassigned word (R100, R124) -/
  | nop (w : Word)
  deriving DecidableEq, Repr

end Sys2Proof
end

