-- ==== Sys2Proof/WellFormed.lean ====
section
/-!
DEFINITION. WellFormed.lean: the checks on an instruction and on a set of parameters. Operand fields need none: their types
are exactly as wide as the encoding's fields (30_encoding.md R91, R93). What can be ill-formed is a no-op that holds the word
of an assigned instruction, and a set of parameters outside the constraints of 00_scope.md R4.
-/

namespace Sys2Proof

/-- The unassigned words, family by family, as R100 lists them. -/
def unassigned (w : Word) : Bool :=
  (w &&& 0xF000 == 0x0000 && w != 0x00E0 && w != 0x00EE)
  || (w &&& 0xF000 == 0x8000 && [0x8, 0x9, 0xA, 0xB, 0xC, 0xD, 0xF].contains (w &&& 0x000F))
  || (w &&& 0xF000 == 0xE000 && !([0x9E, 0xA1].contains (w &&& 0x00FF)))
  || (w &&& 0xF000 == 0xF000
      && !([0x07, 0x0A, 0x15, 0x18, 0x1E, 0x29, 0x33, 0x55, 0x65].contains (w &&& 0x00FF)))

/-- An instruction is well-formed unless it is a no-op whose word is assigned to another instruction. -/
def Instr.wellFormed : Instr → Bool
  | .nop w => unassigned w
  | _ => true

/-- The constraints of R4, one conjunct each: `MEM_SIZE` <= 4096, `MEM_SIZE` >= `LOAD_OFFSET`,
`LOAD_OFFSET` >= `GLYPH_BASE` + 80, 1 <= `STACK_DEPTH` <= 255, both display sizes >= 1, `SHL_FLAG_BIT` 0 or 7,
80 bytes of glyphs (notes/assumptions/3.md). -/
def Params.wellFormed (p : Params) : Bool :=
  p.memSize ≤ 4096
  && p.loadOffset ≤ p.memSize
  && Config.glyphBase + Config.glyphCount * Config.glyphBytes ≤ p.loadOffset
  && 1 ≤ p.stackDepth && p.stackDepth ≤ 255
  && 1 ≤ p.displayW && 1 ≤ p.displayH
  && (p.shlFlagBit == 0 || p.shlFlagBit == 7)
  && p.glyphTable.length == Config.glyphCount * Config.glyphBytes

end Sys2Proof
end

