-- ==== Sys2Proof/Machine/Params.lean ====
section
/-!
DEFINITION. Machine/Params.lean: the defaults of the parameters (00_scope.md R4), which the machine after reset is built at.
The font is the table of 20_memory.md R74, which the spec supplies from general knowledge (notes/assumptions/5.md, 12.md).
-/

namespace Sys2Proof

/-- Glyphs 0 to 7 of R74. -/
def Params.glyphsLow : List Byte :=
  [0xF0, 0x90, 0x90, 0x90, 0xF0,  0x20, 0x60, 0x20, 0x20, 0x70,
   0xF0, 0x10, 0xF0, 0x80, 0xF0,  0xF0, 0x10, 0xF0, 0x10, 0xF0,
   0x90, 0x90, 0xF0, 0x10, 0x10,  0xF0, 0x80, 0xF0, 0x10, 0xF0,
   0xF0, 0x80, 0xF0, 0x90, 0xF0,  0xF0, 0x10, 0x20, 0x40, 0x40]

/-- Glyphs 8 to F of R74. -/
def Params.glyphsHigh : List Byte :=
  [0xF0, 0x90, 0xF0, 0x90, 0xF0,  0xF0, 0x90, 0xF0, 0x10, 0xF0,
   0xF0, 0x90, 0xF0, 0x90, 0x90,  0xE0, 0x90, 0xE0, 0x90, 0xE0,
   0xF0, 0x80, 0x80, 0x80, 0xF0,  0xE0, 0x90, 0x90, 0x90, 0xE0,
   0xF0, 0x80, 0xF0, 0x80, 0xF0,  0xF0, 0x80, 0xF0, 0x80, 0x80]

/-- `RESET_PC`: `LOAD_OFFSET` (R4, R35, decision D5). -/
def Params.resetPc (p : Params) : Word := BitVec.ofNat 16 p.loadOffset

/-- The defaults of R4. -/
def Params.default : Params where
  memSize := 4096
  loadOffset := 0x200
  stackDepth := 16
  displayW := 64
  displayH := 32
  shlFlagBit := 0
  jpV0Accumulate := false
  glyphTable := Params.glyphsLow ++ Params.glyphsHigh

end Sys2Proof
end

