-- ==== Sys2Proof/Machine/State.lean ====
section
/-!
DEFINITION. Machine/State.lean: the machine's state (10_state.md R20, every line of its table), the causes of a fault
(60_exceptions.md R230), and the state after reset (10_state.md R35). The state also holds the parameters of R4, which
nothing writes (notes/assumptions/2.md), and the count of random bytes drawn (notes/assumptions/4.md).
-/

namespace Sys2Proof.Machine

/-- The six causes of R230, each with the `info` it records. -/
inductive Cause where
  /-- code 1 (R231): the lowest offending address. Raised by the fetch, `Dxyn`, `Fx33`, `Fx55`, `Fx65`. -/
  | memoryOutOfBounds (addr : Nat)
  /-- code 2 (R232): the return address that could not be pushed. Raised by `2nnn`. -/
  | stackOverflow (ret : Word)
  /-- code 3 (R233). Raised by `00EE`. -/
  | stackUnderflow
  /-- code 4 (R234): the index. Raised by `Ex9E`, `ExA1` and the host's `KEY_PRESS`, `KEY_RELEASE`. -/
  | keyIndexOutOfRange (k : Nat)
  /-- code 5 (R235): the coordinates. Raised by the host's `PIXEL` only. -/
  | displayCoordinateOutOfRange (x y : Nat)
  /-- code 6 (R236): the length of the image. Raised by the host's `LOAD_IMAGE` only. -/
  | imageTooLarge (len : Nat)
  deriving DecidableEq, Repr

/-- The numeric code of a cause (R230). -/
def Cause.code : Cause → Nat
  | .memoryOutOfBounds _ => 1
  | .stackOverflow _ => 2
  | .stackUnderflow => 3
  | .keyIndexOutOfRange _ => 4
  | .displayCoordinateOutOfRange _ _ => 5
  | .imageTooLarge _ => 6

/-- The fault latch (R33): sticky until `RESET`. -/
inductive Status where
  | running
  | faulted (cause : Cause)
  deriving DecidableEq, Repr

/-- The reasons a step could stop WITHOUT a next state. There is none: every fault of this machine is a next state with the
latch set (R9, R240), so no step ends here and the type has no constructor (notes/assumptions/1.md: safe). -/
inductive Fault
  deriving DecidableEq, Repr

/-- The reasons a step could have no meaning. -/
inductive Refusal where
  /-- an instruction with no meaning in the model: raised by no arm of `exec`, since every instruction has its meaning
  (safe: nothing is proved of a refusal) -/
  | notModelled (mnemonic : String)
  deriving DecidableEq, Repr

/-- Memory (R32): the bytes that differ from the reset contents, by rising address (`Memory.wf` in Machine/Ops.lean). -/
abbrev Memory := List Host.Cell

/-- The display (R30): rows of cells, row 0 first, column 0 first; `true` is on. -/
abbrev Display := List (List Bool)

/-- The machine state: the tuple of R20, and the model's own `params` and `draws`. -/
structure State where
  /-- the parameters of R4: constant, the model's own field (R37; notes/assumptions/2.md) -/
  params : Params
  /-- `V[0..15]` (R21, R22, R23) -/
  v : Vector Byte 16
  /-- `I` (R24) -/
  i : Word
  /-- `pc` (R25, R26) -/
  pc : Word
  /-- `sp` (R27) -/
  sp : Byte
  /-- `STACK[0..STACK_DEPTH-1]` (R28) -/
  stack : List Word
  /-- `DT` (R29) -/
  dt : Byte
  /-- `ST` (R29) -/
  st : Byte
  /-- `FB` (R30) -/
  fb : Display
  /-- `K[0..15]` (R31) -/
  keys : Vector Bool 16
  /-- `MEM` (R32) -/
  mem : Memory
  /-- `status` (R33) -/
  status : Status
  /-- how many random bytes have been drawn: the model's own field (notes/assumptions/4.md) -/
  draws : Nat
  deriving DecidableEq, Repr

/-- A display with every cell off. -/
def blankDisplay (p : Params) : Display := List.replicate p.displayH (List.replicate p.displayW false)

/-- The state after reset of a machine with parameters `p` (R35, R201, R270). No byte of memory differs from the reset
contents, so none is listed. -/
def State.resetOf (p : Params) : State where
  params := p
  v := Vector.replicate 16 0
  i := 0
  pc := p.resetPc
  sp := 0
  stack := List.replicate p.stackDepth 0
  dt := 0
  st := 0
  fb := blankDisplay p
  keys := Vector.replicate 16 false
  mem := []
  status := .running
  draws := 0

/-- The machine right after reset, at the defaults of R4. -/
def State.reset : State := State.resetOf Params.default

end Sys2Proof.Machine
end

