-- ==== Sys2Proof/Machine/Ops.lean ====
section
/-!
DEFINITION. Machine/Ops.lean: the named operations over memory, registers, the stack and `pc`, the fetch, and taking a fault
(60_exceptions.md R240). An operation that can fault answers `Except Cause State`; `State.commit` is the one place where a
fault is taken, so every fault discards what the instruction did (R240: all checks before any write).
-/

namespace Sys2Proof.Machine

/-- What a meaning answers. -/
abbrev Result := Host.Outcome State Fault Refusal

/-! ## Memory (20_memory.md) -/

/-- What an unlisted address reads as: its content after reset (R35), a glyph byte or 0. -/
def Memory.background (p : Params) (a : Nat) : Byte :=
  if Config.glyphBase ≤ a then p.glyphTable.getD (a - Config.glyphBase) 0 else 0

/-- The byte listed for an address, if any. -/
def Memory.lookup : Memory → Nat → Option Byte
  | [], _ => none
  | (k, b) :: rest, a => if k = a then some b else Memory.lookup rest a

/-- `MEM[a]`. -/
def Memory.read (p : Params) (m : Memory) (a : Nat) : Byte := (Memory.lookup m a).getD (Memory.background p a)

/-- List a byte at its place among rising addresses. -/
def Memory.insert : Memory → Nat → Byte → Memory
  | [], a, b => [(a, b)]
  | (k, c) :: rest, a, b =>
    if a < k then (a, b) :: (k, c) :: rest
    else if a = k then (a, b) :: rest
    else (k, c) :: Memory.insert rest a b

/-- `MEM[a] <- b`: a byte equal to the reset content is not listed. -/
def Memory.write (p : Params) (m : Memory) (a : Nat) (b : Byte) : Memory :=
  if b = Memory.background p a then m.filter (fun c => c.1 ≠ a) else Memory.insert m a b

/-- The canonical form of memory: addresses strictly rising and inside `0 .. MEM_SIZE-1`, no byte equal to what an unlisted
address reads as. -/
abbrev Memory.wf (p : Params) (m : Memory) : Prop :=
  m.Pairwise (fun c d => c.1 < d.1) ∧ ∀ c ∈ m, c.1 < p.memSize ∧ c.2 ≠ Memory.background p c.1

/-- `MEM[a]` of a state. -/
def State.byte (s : State) (a : Nat) : Byte := Memory.read s.params s.mem a

/-- `MEM[a] <- b` in a state, the address already checked. -/
def State.setByte (s : State) (a : Nat) (b : Byte) : State := { s with mem := Memory.write s.params s.mem a b }

/-- Bytes to consecutive addresses, in ascending order (R67), the addresses already checked. -/
def State.writeBytes (s : State) (base : Nat) : List Byte → State
  | [] => s
  | b :: bs => (s.setByte base b).writeBytes (base + 1) bs

/-- The address decoder's check of the `n` addresses from `base` (R62, R64: an unbounded sum, never wrapped): the LOWEST
address above `MEM_SIZE - 1` is the fault's `info` (R231). -/
def State.checkRange (s : State) (base n : Nat) : Except Cause Unit :=
  match (List.range n).find? (fun k => s.params.memSize ≤ base + k) with
  | some k => .error (.memoryOutOfBounds (base + k))
  | none => .ok ()

/-- Checked reads of `n` bytes from `base`. -/
def State.loadBytes (s : State) (base n : Nat) : Except Cause (List Byte) :=
  (s.checkRange base n).map fun _ => (List.range n).map fun k => s.byte (base + k)

/-- Checked writes of bytes from `base`: all checks before any write (R240). -/
def State.storeBytes (s : State) (base : Nat) (bytes : List Byte) : Except Cause State :=
  (s.checkRange base bytes.length).map fun _ => s.writeBytes base bytes

/-- `MemRead(addr, 1)` (R62). -/
def State.memRead1 (s : State) (addr : Nat) : Except Cause Byte :=
  if s.params.memSize ≤ addr then .error (.memoryOutOfBounds addr) else .ok (s.byte addr)

/-- `MemRead(addr, 2)` (R63): big-endian, both bytes checked, the second address not wrapped. -/
def State.memRead2 (s : State) (addr : Nat) : Except Cause Word :=
  match s.memRead1 addr, s.memRead1 (addr + 1) with
  | .error c, _ => .error c
  | .ok _, .error c => .error c
  | .ok hi, .ok lo => .ok (wordOfBytes hi lo)

/-- The fetch of a `STEP` (R203). -/
def State.fetch (s : State) : Except Cause Word := s.memRead2 s.pc.toNat

/-! ## Registers (10_state.md R21 to R29) -/

/-- `V[x]`. -/
def State.reg (s : State) (x : Reg) : Byte := s.v[x.val]

/-- `V[x] <- b`: no register is hardwired (R21). -/
def State.setReg (s : State) (x : Reg) (b : Byte) : State := { s with v := s.v.set x.val b }

/-- Bytes to consecutive registers from number `k` upward. -/
def writeRegs (v : Vector Byte 16) (k : Nat) : List Byte → Vector Byte 16
  | [] => v
  | b :: bs => writeRegs (v.setIfInBounds k b) (k + 1) bs

/-- `V[0..]` loaded from a list, register 0 first (R197). -/
def State.loadRegs (s : State) (bytes : List Byte) : State := { s with v := writeRegs s.v 0 bytes }

/-- `I <- w`: any 16-bit value (R24). -/
def State.setI (s : State) (w : Word) : State := { s with i := w }

/-- `DT <- b` (R29). -/
def State.setDT (s : State) (b : Byte) : State := { s with dt := b }

/-- `ST <- b` (R29). -/
def State.setST (s : State) (b : Byte) : State := { s with st := b }

/-- `FB` replaced as a whole. -/
def State.setFb (s : State) (fb : Display) : State := { s with fb := fb }

/-- One more random byte has been drawn. -/
def State.countDraw (s : State) : State := { s with draws := s.draws + 1 }

/-! ## `pc` (10_state.md R25, R26): every sum modulo 65536 -/

/-- `pc <- target`. -/
def State.jump (s : State) (target : Word) : State := { s with pc := target }

/-- `pc <- pc + 2`: the increment between fetch and execute (R203), and what a skip adds (41_skip.md). -/
def State.advance (s : State) : State := { s with pc := s.pc + 2 }

/-- A skip under a condition: two bytes more, whatever stands there. -/
def State.skipIf (s : State) (c : Bool) : State := if c then s.advance else s

/-- `pc <- pc - 2`: back to the instruction's own address (R182). -/
def State.refetch (s : State) : State := { s with pc := s.pc - 2 }

/-! ## The call stack (10_state.md R28) -/

/-- `Push(v)`. -/
def State.push (s : State) (ret : Word) : Except Cause State :=
  if s.sp.toNat = s.params.stackDepth then .error (.stackOverflow ret)
  else .ok { s with stack := s.stack.set s.sp.toNat ret, sp := s.sp + 1 }

/-- `Pop()`: the slot keeps its value. -/
def State.pop (s : State) : Except Cause (Word × State) :=
  if s.sp = 0 then .error .stackUnderflow
  else .ok (s.stack.getD (s.sp - 1).toNat 0, { s with sp := s.sp - 1 })

/-! ## Taking a fault (60_exceptions.md R240) -/

/-- The latch is set; nothing else changes, and control goes nowhere. -/
def State.raise (s : State) (c : Cause) : State := { s with status := .faulted c }

/-- The end of an operation that may fault: its state, or the state it began in with the fault latched (R240). -/
def State.commit (s : State) : Except Cause State → Result
  | .ok t => .next t
  | .error c => .next (s.raise c)

end Sys2Proof.Machine
end

