-- ==== Sys2Proof/Machine/Flags.lean ====
section
/-!
DEFINITION. Machine/Flags.lean: every computation of the flag register `V[15]` (10_state.md R22) and the order in which the
flag and the result are written (43_alu.md R150).
-/

namespace Sys2Proof.Machine

/-- The byte written for a flag: 1 or 0. -/
def flagByte (c : Bool) : Byte := if c then 1 else 0

/-- The unwrapped sum exceeds 255 (R155). -/
def carries (a b : Byte) : Bool := 255 < a.toNat + b.toNat

/-- No borrow: minuend >= subtrahend (R156, R158). -/
def noBorrow (minuend subtrahend : Byte) : Bool := subtrahend.toNat ≤ minuend.toNat

/-- The bit shifted out by a right shift (R157). -/
def shrFlag (a : Byte) : Bool := a.getLsbD 0

/-- The bit of the old value that a left shift copies to the flag: bit `SHL_FLAG_BIT` (R159). -/
def shlFlag (flagBit : Nat) (a : Byte) : Bool := a.getLsbD flagBit

/-- `V[15] <- flag`. -/
def State.setFlag (s : State) (c : Bool) : State := s.setReg vf (flagByte c)

/-- The write order of R150: first the flag, if the instruction writes one, last the result. -/
def State.writeFlagThenResult (s : State) (flag : Option Bool) (x : Reg) (r : Byte) : State :=
  match flag with
  | some c => (s.setFlag c).setReg x r
  | none => s.setReg x r

end Sys2Proof.Machine
end

