-- ==== Sys2Proof/Machine/Alu.lean ====
section
/-!
DEFINITION. Machine/Alu.lean: the register-register group, family 8 (43_alu.md). Operands are sampled from the state before
the instruction; the flag is written first, the result last (R150).
-/

namespace Sys2Proof.Machine

/-- `LD Vx, Vy` (R151). -/
def execLdReg (x y : Reg) (s : State) : Result := .next (s.setReg x (s.reg y))

/-- `OR Vx, Vy` (R152): no flag. -/
def execOr (x y : Reg) (s : State) : Result := .next (s.setReg x (s.reg x ||| s.reg y))

/-- `AND Vx, Vy` (R153): no flag. -/
def execAnd (x y : Reg) (s : State) : Result := .next (s.setReg x (s.reg x &&& s.reg y))

/-- `XOR Vx, Vy` (R154): no flag. -/
def execXor (x y : Reg) (s : State) : Result := .next (s.setReg x (s.reg x ^^^ s.reg y))

/-- `ADD Vx, Vy` (R155): the flag is written 1 on carry and not written otherwise. -/
def execAddReg (x y : Reg) (s : State) : Result :=
  .next (s.writeFlagThenResult (if carries (s.reg x) (s.reg y) then some true else none) x (s.reg x + s.reg y))

/-- `SUB Vx, Vy` (R156). -/
def execSub (x y : Reg) (s : State) : Result :=
  .next (s.writeFlagThenResult (some (noBorrow (s.reg x) (s.reg y))) x (s.reg x - s.reg y))

/-- `SHR Vx` (R157): in place, the `y` field is ignored (R101). -/
def execShr (x _y : Reg) (s : State) : Result :=
  .next (s.writeFlagThenResult (some (shrFlag (s.reg x))) x (s.reg x >>> 1))

/-- `SUBN Vx, Vy` (R158): the reversed subtraction. -/
def execSubn (x y : Reg) (s : State) : Result :=
  .next (s.writeFlagThenResult (some (noBorrow (s.reg y) (s.reg x))) x (s.reg y - s.reg x))

/-- `SHL Vx` (R159), under the machine's `SHL_FLAG_BIT`: in place, the `y` field is ignored (R101). -/
def execShl (x _y : Reg) (s : State) : Result :=
  .next (s.writeFlagThenResult (some (shlFlag s.params.shlFlagBit (s.reg x))) x (s.reg x <<< 1))

end Sys2Proof.Machine
end

