-- ==== Sys2Proof/Machine/Display.lean ====
section
/-!
DEFINITION. Machine/Display.lean: the XOR blitter and the display instructions (44_display.md).
-/

namespace Sys2Proof.Machine

/-- `FB[cy][cx]`; a cell outside the grid, which no instruction forms, reads as off (notes/assumptions/17.md). -/
def Display.cell (fb : Display) (cy cx : Nat) : Bool := (fb.getD cy []).getD cx false

/-- `FB[cy][cx] <- FB[cy][cx] ^ 1`. -/
def Display.toggle (fb : Display) (cy cx : Nat) : Display := fb.modify cy fun row => row.modify cx not

/-- A blit under way: the display and whether a lit cell has been hit. -/
structure Blit where
  fb : Display
  collided : Bool
  deriving DecidableEq, Repr

/-- One cell of a blit (R170): note whether it is lit, then invert it. -/
def Blit.hit (b : Blit) (cy cx : Nat) : Blit := ⟨b.fb.toggle cy cx, b.collided || b.fb.cell cy cx⟩

/-- One column of one sprite row (R170): bit 7 of the byte is column 0; the modulo is applied to the sum. -/
def blitColumn (p : Params) (x0 y : Nat) (bits : Byte) (b : Blit) (col : Nat) : Blit :=
  if bits.getLsbD (7 - col) then b.hit (y % p.displayH) ((x0 + col) % p.displayW) else b

/-- One sprite row at (unreduced) row `y`, columns ascending (R170). -/
def blitRow (p : Params) (x0 y : Nat) (bits : Byte) (b : Blit) : Blit :=
  (List.range 8).foldl (blitColumn p x0 y bits) b

/-- Sprite rows from (unreduced) row `y` on, rows ascending (R170). -/
def blitRows (p : Params) (x0 : Nat) : Nat → List Byte → Blit → Blit
  | _, [], b => b
  | y, bits :: rest, b => blitRows p x0 (y + 1) rest (blitRow p x0 y bits b)

/-- `Blit(x0, y0, rows)` (R170). -/
def blit (p : Params) (x0 y0 : Nat) (rows : List Byte) (fb : Display) : Blit := blitRows p x0 y0 rows ⟨fb, false⟩

/-- The write-back of a blit: the display, then the collision into the flag register (R172). -/
def State.finishBlit (s : State) (b : Blit) : State := (s.setFb b.fb).setFlag b.collided

/-- `CLS` (R171). -/
def execCls (s : State) : Result := .next (s.setFb (blankDisplay s.params))

/-- `DRW Vx, Vy, n` (R172): all sprite bytes are read, and checked, before anything is written. -/
def execDrw (x y : Reg) (n : Nibble) (s : State) : Result :=
  s.commit ((s.loadBytes s.i.toNat n.toNat).map fun rows =>
    s.finishBlit (blit s.params (s.reg x).toNat (s.reg y).toNat rows s.fb))

end Sys2Proof.Machine
end

