-- ==== Sys2Proof/Machine/Operands.lean ====
section
/-!
DEFINITION. Machine/Operands.lean: the values instructions compute from their operands (30_encoding.md R93): addresses,
jump targets, decimal digits, blocks of registers, and the key queries of 45_keys.md.
-/

namespace Sys2Proof.Machine

/-- `nnn` zero-extended to 16 bits (R93). -/
def addrWord (nnn : Addr) : Word := nnn.zeroExtend 16

/-- A register value zero-extended to 16 bits. -/
def byteWord (b : Byte) : Word := b.zeroExtend 16

/-- The target of the indexed jump (R123) under either value of `JP_V0_ACCUMULATE`; `pc` is the incremented one. -/
def indexedTarget (accumulate : Bool) (pc : Word) (nnn : Addr) (v0 : Byte) : Word :=
  if accumulate then pc + addrWord nnn + byteWord v0 else addrWord nnn + byteWord v0

/-- The address of the glyph that the low nibble of a register names (R194). -/
def glyphAddress (b : Byte) : Word :=
  BitVec.ofNat 16 (Config.glyphBase + (b &&& 0x0F).toNat * Config.glyphBytes)

/-- Hundreds, tens and ones of a byte, each in a byte of its own (R195). -/
def decimalDigits (b : Byte) : List Byte :=
  [BitVec.ofNat 8 (b.toNat / 100), BitVec.ofNat 8 (b.toNat / 10 % 10), BitVec.ofNat 8 (b.toNat % 10)]

/-- `V[0] .. V[x]`, register 0 first (R196). -/
def State.regsUpTo (s : State) (x : Reg) : List Byte := s.v.toList.take (x.val + 1)

/-- `is_down(k)` for a whole register value (R180): an index above 15 is a fault, not masked. -/
def State.isDown (s : State) (k : Byte) : Except Cause Bool :=
  if h : k.toNat < 16 then .ok s.keys[k.toNat] else .error (.keyIndexOutOfRange k.toNat)

/-- The one ascending scan of the keys (R182): the lowest index that is down. -/
def State.firstKeyDown (s : State) : Option Reg := (List.finRange 16).find? fun k => s.keys[k.val]

end Sys2Proof.Machine
end

