-- ==== Sys2Proof/Machine/Flow.lean ====
section
/-!
DEFINITION. Machine/Flow.lean: control transfer and the no-op (40_flow.md). On entry `pc` is the fetch address plus 2.
-/

namespace Sys2Proof.Machine

/-- `RET` (R120). -/
def execRet (s : State) : Result := s.commit (s.pop.map fun r => r.2.jump r.1)

/-- `JP nnn` (R121). -/
def execJp (nnn : Addr) (s : State) : Result := .next (s.jump (addrWord nnn))

/-- `CALL nnn` (R122): the incremented `pc` is pushed. -/
def execCall (nnn : Addr) (s : State) : Result := s.commit ((s.push s.pc).map fun t => t.jump (addrWord nnn))

/-- `JP V0, nnn` (R123), under the machine's `JP_V0_ACCUMULATE`. -/
def execJpV0 (nnn : Addr) (s : State) : Result :=
  .next (s.jump (indexedTarget s.params.jpV0Accumulate s.pc nnn (s.reg 0)))

/-- `NOP` (R124): every unassigned word; nothing beyond the fetch's increment. -/
def execNop (_w : Word) (s : State) : Result := .next s

end Sys2Proof.Machine
end

