-- ==== Sys2Proof/Machine/Keys.lean ====
section
/-!
DEFINITION. Machine/Keys.lean: the keyboard instructions (45_keys.md). They sample the keys and never change them.
-/

namespace Sys2Proof.Machine

/-- `SKP Vx` (R180). -/
def execSkp (x : Reg) (s : State) : Result := s.commit ((s.isDown (s.reg x)).map fun down => s.skipIf down)

/-- `SKNP Vx` (R181). -/
def execSknp (x : Reg) (s : State) : Result := s.commit ((s.isDown (s.reg x)).map fun down => s.skipIf (!down))

/-- `LD Vx, K` (R182): the lowest key that is down, or this instruction again at the next step. -/
def execLdVxK (x : Reg) (s : State) : Result :=
  match s.firstKeyDown with
  | some k => .next (s.setReg x (BitVec.ofNat 8 k.val))
  | none => .next s.refetch

end Sys2Proof.Machine
end

