-- ==== Sys2Proof/Machine/LoadImm.lean ====
section
/-!
DEFINITION. Machine/LoadImm.lean: immediate loads, immediate add, random (42_load_imm.md).
-/

namespace Sys2Proof.Machine

/-- `LD Vx, kk` (R140). -/
def execLdImm (x : Reg) (kk : Byte) (s : State) : Result := .next (s.setReg x kk)

/-- `ADD Vx, kk` (R141): wraps, no flag. -/
def execAddImm (x : Reg) (kk : Byte) (s : State) : Result := .next (s.setReg x (s.reg x + kk))

/-- `LD I, nnn` (R142). -/
def execLdI (nnn : Addr) (s : State) : Result := .next (s.setI (addrWord nnn))

/-- The effect of `RND` for a drawn byte `r` (R143). -/
def State.maskInto (s : State) (r : Byte) (x : Reg) (kk : Byte) : State := s.setReg x (r &&& kk)

/-- `RND Vx, kk` (R143): the drawn byte is the free value `Config.randByte` at this draw. -/
def execRnd (x : Reg) (kk : Byte) (s : State) : Result :=
  .next (s.countDraw.maskInto (Config.randByte s.draws) x kk)

end Sys2Proof.Machine
end

