-- ==== Sys2Proof/Machine/Misc.lean ====
section
/-!
DEFINITION. Machine/Misc.lean: timers, index register and memory transfers, family F (46_timer_index_memory.md).
-/

namespace Sys2Proof.Machine

/-- `LD Vx, DT` (R190). -/
def execLdVxDT (x : Reg) (s : State) : Result := .next (s.setReg x s.dt)

/-- `LD DT, Vx` (R191). -/
def execLdDTVx (x : Reg) (s : State) : Result := .next (s.setDT (s.reg x))

/-- `LD ST, Vx` (R192). -/
def execLdSTVx (x : Reg) (s : State) : Result := .next (s.setST (s.reg x))

/-- `ADD I, Vx` (R193): modulo 65536, no flag. -/
def execAddIVx (x : Reg) (s : State) : Result := .next (s.setI (s.i + byteWord (s.reg x)))

/-- `LD F, Vx` (R194): the low nibble selects the glyph. -/
def execLdFVx (x : Reg) (s : State) : Result := .next (s.setI (glyphAddress (s.reg x)))

/-- `LD B, Vx` (R195). -/
def execLdBVx (x : Reg) (s : State) : Result := s.commit (s.storeBytes s.i.toNat (decimalDigits (s.reg x)))

/-- `LD [I], Vx` (R196): `I` is not modified. -/
def execLdMemVx (x : Reg) (s : State) : Result := s.commit (s.storeBytes s.i.toNat (s.regsUpTo x))

/-- `LD Vx, [I]` (R197): `I` is not modified. -/
def execLdVxMem (x : Reg) (s : State) : Result :=
  s.commit ((s.loadBytes s.i.toNat (x.val + 1)).map fun bytes => s.loadRegs bytes)

end Sys2Proof.Machine
end

