-- ==== Sys2Proof/Machine/Skip.lean ====
section
/-!
DEFINITION. Machine/Skip.lean: compare-and-skip (41_skip.md). A skip adds 2 more to the incremented `pc`.
-/

namespace Sys2Proof.Machine

/-- `SE Vx, kk` (R130). -/
def execSeImm (x : Reg) (kk : Byte) (s : State) : Result := .next (s.skipIf (s.reg x == kk))

/-- `SNE Vx, kk` (R131). -/
def execSneImm (x : Reg) (kk : Byte) (s : State) : Result := .next (s.skipIf (s.reg x != kk))

/-- `SE Vx, Vy` (R132); the low nibble is not examined (R99). -/
def execSeReg (x y : Reg) (_n : Nibble) (s : State) : Result := .next (s.skipIf (s.reg x == s.reg y))

/-- `SNE Vx, Vy` (R133); the low nibble is not examined (R99). -/
def execSneReg (x y : Reg) (_n : Nibble) (s : State) : Result := .next (s.skipIf (s.reg x != s.reg y))

end Sys2Proof.Machine
end

