-- ==== Sys2Proof/Machine/Step.lean ====
section
/-!
DEFINITION. Machine/Step.lean: `STEP` (48_host_operations.md R203): fetch, increment, decode, execute one instruction.
-/

namespace Sys2Proof.Machine

/-- One `STEP`. While a fault is latched nothing changes (R210); a faulting fetch leaves `pc` where it was (R203). -/
def step (s : State) : Host.Outcome State Fault Refusal :=
  match s.status with
  | .faulted _ => .next s
  | .running =>
    match s.fetch with
    | .error c => .next (s.raise c)
    | .ok w => exec (decode w) s.advance

/-- The host's load of one instruction: its word stands, high byte first, at `pc` and `pc + 1`, and the machine is running,
so that the very next `step` fetches and runs it (notes/assumptions/16.md). Only bytes inside memory are written. -/
def State.withFetchWord (s : State) (nbits w : Nat) : State :=
  if s.pc.toNat + 1 < s.params.memSize then
    { s.writeBytes s.pc.toNat (bytesOfWord (tableWord nbits w)) with status := .running }
  else s

end Sys2Proof.Machine
end

