-- ==== Sys2Proof/Machine/HostOps.lean ====
section
/-!
DEFINITION. Machine/HostOps.lean: the operations through which the host acts on the block (48_host_operations.md R200 to
R211). Each is one atomic transition; the host's schedule is a list of them (R209; notes/assumptions/15.md).
-/

namespace Sys2Proof.Machine

/-- What an operation does only while no fault is latched (R210). -/
def State.whileRunning (s t : State) : State :=
  match s.status with
  | .running => t
  | .faulted _ => s

/-- An operation that may fault: its state, or the state it began in with the fault latched (R240). -/
def State.commitHost (s : State) : Except Cause State → State
  | .ok t => t
  | .error c => s.raise c

/-- `RESET` (R201): the state of R35, whatever the state was; the parameters are fixed for the life of the machine (R37) and
the random draws go on (notes/assumptions/4.md). -/
def State.hostReset (s : State) : State := { State.resetOf s.params with draws := s.draws }

/-- `LOAD_IMAGE(bytes)` (R202): the fit is checked before any byte is written. -/
def State.hostLoadImage (s : State) (bytes : List Byte) : State :=
  s.whileRunning (s.commitHost
    (if s.params.memSize < s.params.loadOffset + bytes.length then .error (.imageTooLarge bytes.length)
     else .ok (s.writeBytes s.params.loadOffset bytes)))

/-- `STEP` (R203) as a state: `step` always answers a next state. -/
def State.hostStep (s : State) : State :=
  match step s with
  | .next t => t
  | .fault _ => s
  | .refused _ => s

/-- A timer after one `TICK`: it stops at 0 (R204). -/
def countDown (t : Byte) : Byte := if t = 0 then 0 else t - 1

/-- `TICK` (R204). -/
def State.hostTick (s : State) : State := s.whileRunning ((s.setDT (countDown s.dt)).setST (countDown s.st))

/-- `K[k] <- down`, or the fault of an index above 15 (R205, R206). -/
def State.setKey (s : State) (k : Nat) (down : Bool) : Except Cause State :=
  if h : k < 16 then .ok { s with keys := s.keys.set k down } else .error (.keyIndexOutOfRange k)

/-- `KEY_PRESS(k)` (R205). -/
def State.hostKeyPress (s : State) (k : Nat) : State := s.whileRunning (s.commitHost (s.setKey k true))

/-- `KEY_RELEASE(k)` (R206). -/
def State.hostKeyRelease (s : State) (k : Nat) : State := s.whileRunning (s.commitHost (s.setKey k false))

/-- The coordinates of a `PIXEL` are inside the display (R207). -/
def State.onDisplay (s : State) (x y : Nat) : Bool := x < s.params.displayW && y < s.params.displayH

/-- What `PIXEL(x, y)` returns (R207): the cell in every status, nothing out of range. -/
def State.pixel (s : State) (x y : Nat) : Option Bool := if s.onDisplay x y then some (s.fb.cell y x) else none

/-- What `PIXEL(x, y)` does to the state (R207): only an out-of-range read of a running machine latches a fault. -/
def State.hostPixel (s : State) (x y : Nat) : State :=
  if s.onDisplay x y then s else s.whileRunning (s.raise (.displayCoordinateOutOfRange x y))

/-- The eight operations of R200. -/
inductive HostOp where
  | reset
  | loadImage (bytes : List Byte)
  | step
  | tick
  | keyPress (k : Nat)
  | keyRelease (k : Nat)
  | pixel (x y : Nat)
  | debugRead
  deriving DecidableEq, Repr

/-- What an operation gives the host (R200, R210): ok, the latched fault, a pixel, nothing, or a copy of the state. -/
inductive Report where
  | ok
  | fault (cause : Cause)
  | pixel (on : Bool)
  | nothing
  | dump (s : State)
  deriving DecidableEq, Repr

/-- The state after an operation (R200). -/
def hostApply (op : HostOp) (s : State) : State :=
  match op with
  | .reset => s.hostReset
  | .loadImage bytes => s.hostLoadImage bytes
  | .step => s.hostStep
  | .tick => s.hostTick
  | .keyPress k => s.hostKeyPress k
  | .keyRelease k => s.hostKeyRelease k
  | .pixel x y => s.hostPixel x y
  | .debugRead => s

/-- Ok, or the fault that is latched (R210, R240). -/
def Status.report : Status → Report
  | .running => .ok
  | .faulted c => .fault c

/-- What an operation reports, given the state it began in. -/
def hostReport (op : HostOp) (s : State) : Report :=
  match op with
  | .debugRead => .dump s
  | .pixel x y =>
    match s.pixel x y, s.status with
    | some on, _ => .pixel on
    | none, .faulted _ => .nothing
    | none, .running => .fault (.displayCoordinateOutOfRange x y)
  | .reset => (hostApply .reset s).status.report
  | .loadImage bytes => (hostApply (.loadImage bytes) s).status.report
  | .step => (hostApply .step s).status.report
  | .tick => (hostApply .tick s).status.report
  | .keyPress k => (hostApply (.keyPress k) s).status.report
  | .keyRelease k => (hostApply (.keyRelease k) s).status.report

/-- The state after a sequence of operations: the fold of their transitions (R200). -/
def hostRun (ops : List HostOp) (s : State) : State := ops.foldl (fun t op => hostApply op t) s

end Sys2Proof.Machine
end

