-- ==== Sys2Proof/Safety.lean ====
section
/-!
DEFINITION. Safety.lean: the terms the statements use: the machine's invariants, what an operation may touch and what it must
then leave alone (10_state.md R36), which instruction can raise which cause (60_exceptions.md R230), and the end of a program
(48_host_operations.md R212).
-/

namespace Sys2Proof.Machine

/-! ## Invariants -/

/-- What holds of every state a run reaches: the parameters meet R4, memory is in its canonical form, `sp` counts at most
`STACK_DEPTH` entries (R27), the stack and the display have the sizes of R20. -/
structure State.Inv (s : State) : Prop where
  params : s.params.wellFormed = true
  memory : Memory.wf s.params s.mem
  spBound : s.sp.toNat ≤ s.params.stackDepth
  stackSize : s.stack.length = s.params.stackDepth
  rows : s.fb.length = s.params.displayH
  columns : ∀ row ∈ s.fb, row.length = s.params.displayW

/-- The largest value `pc` takes in a run (R26): 4095 + 255, or 4096 + 4095 + 255 when `JP_V0_ACCUMULATE` holds. -/
def pcLimit (p : Params) : Nat := if p.jpV0Accumulate then 8446 else 4350

/-- What R26 and R120 derive of `pc` and of return addresses: no sum on `pc` ever wraps 16 bits. -/
structure State.PcInv (s : State) : Prop where
  pc : s.pc.toNat ≤ pcLimit s.params
  returns : ∀ a ∈ s.stack, a.toNat ≤ s.params.memSize

/-! ## Frames -/

/-- What an instruction may change; whatever is not named stays. Memory may change in `storeLen` bytes from `storeBase`. -/
structure Touched where
  regs : List Reg := []
  i : Bool := false
  pc : Bool := false
  sp : Bool := false
  stack : Bool := false
  dt : Bool := false
  st : Bool := false
  fb : Bool := false
  draws : Bool := false
  storeBase : Nat := 0
  storeLen : Nat := 0

/-- From `s` to `t` nothing changed but what `m` names. Keys, the latch and the parameters never change. -/
structure Frame (m : Touched) (s t : State) : Prop where
  regs : ∀ r, r ∉ m.regs → t.reg r = s.reg r
  i : m.i = false → t.i = s.i
  pc : m.pc = false → t.pc = s.pc
  sp : m.sp = false → t.sp = s.sp
  stack : m.stack = false → t.stack = s.stack
  dt : m.dt = false → t.dt = s.dt
  st : m.st = false → t.st = s.st
  fb : m.fb = false → t.fb = s.fb
  draws : m.draws = false → t.draws = s.draws
  keys : t.keys = s.keys
  status : t.status = s.status
  params : t.params = s.params
  bytes : ∀ a, ¬(m.storeBase ≤ a ∧ a < m.storeBase + m.storeLen) → t.byte a = s.byte a

/-- Registers `V[0]` to `V[x]`. -/
def regsThrough (x : Reg) : List Reg := (List.finRange 16).filter fun r => r.val ≤ x.val

end Sys2Proof.Machine

namespace Sys2Proof

open Sys2Proof.Machine

/-- The "written by" column of R36 (`pc` beyond the fetch's increment), the flag's writers as in R22: `RET`
writes `sp` but no slot, and the register add writes the flag only on carry. -/
def Instr.touches (i : Instr) (s : State) : Touched :=
  match i with
  | .cls => { fb := true }
  | .ret => { pc := true, sp := true }
  | .jp _ => { pc := true }
  | .call _ => { pc := true, sp := true, stack := true }
  | .seImm _ _ => { pc := true }
  | .sneImm _ _ => { pc := true }
  | .seReg _ _ _ => { pc := true }
  | .ldImm x _ => { regs := [x] }
  | .addImm x _ => { regs := [x] }
  | .ldReg x _ => { regs := [x] }
  | .or x _ => { regs := [x] }
  | .and x _ => { regs := [x] }
  | .xor x _ => { regs := [x] }
  | .addReg x y => { regs := if carries (s.reg x) (s.reg y) then [x, vf] else [x] }
  | .sub x _ => { regs := [x, vf] }
  | .shr x _ => { regs := [x, vf] }
  | .subn x _ => { regs := [x, vf] }
  | .shl x _ => { regs := [x, vf] }
  | .sneReg _ _ _ => { pc := true }
  | .ldI _ => { i := true }
  | .jpV0 _ => { pc := true }
  | .rnd x _ => { regs := [x], draws := true }
  | .drw _ _ _ => { regs := [vf], fb := true }
  | .skp _ => { pc := true }
  | .sknp _ => { pc := true }
  | .ldVxDT x => { regs := [x] }
  | .ldVxK x => { regs := [x], pc := true }
  | .ldDTVx _ => { dt := true }
  | .ldSTVx _ => { st := true }
  | .addIVx _ => { i := true }
  | .ldFVx _ => { i := true }
  | .ldBVx _ => { storeBase := s.i.toNat, storeLen := 3 }
  | .ldMemVx x => { storeBase := s.i.toNat, storeLen := x.val + 1 }
  | .ldVxMem x => { regs := regsThrough x }
  | .nop _ => {}

/-- Which cause the execute phase of an instruction can raise (R230, R239): at most one kind each, and none for the rest. -/
def Instr.mayRaise : Instr → Cause → Bool
  | .ret, .stackUnderflow => true
  | .call _, .stackOverflow _ => true
  | .skp _, .keyIndexOutOfRange _ => true
  | .sknp _, .keyIndexOutOfRange _ => true
  | .drw _ _ _, .memoryOutOfBounds _ => true
  | .ldBVx _, .memoryOutOfBounds _ => true
  | .ldMemVx _, .memoryOutOfBounds _ => true
  | .ldVxMem _, .memoryOutOfBounds _ => true
  | _, _ => false

end Sys2Proof

namespace Sys2Proof.Machine

/-! ## Sprites -/

/-- The cells (row, column) that one sprite row toggles, columns ascending (R170). -/
def spriteRowCells (p : Params) (x0 y : Nat) (bits : Byte) : List (Nat × Nat) :=
  ((List.range 8).filter fun col => bits.getLsbD (7 - col)).map fun col => (y % p.displayH, (x0 + col) % p.displayW)

/-- The cells a sprite toggles, in the order of R170: rows ascending, columns ascending. -/
def spriteCells (p : Params) (x0 : Nat) : Nat → List Byte → List (Nat × Nat)
  | _, [] => []
  | y, bits :: rest => spriteRowCells p x0 y bits ++ spriteCells p x0 (y + 1) rest

/-! ## Runs -/

/-- The program has finished by convention (R212): a jump to itself stands at `pc`. -/
def State.Finished (s : State) : Prop :=
  s.status = .running ∧ s.pc.toNat + 1 < s.params.memSize ∧
    (s.byte s.pc.toNat).toNat * 256 + (s.byte (s.pc.toNat + 1)).toNat = 0x1000 + s.pc.toNat

/-- The next step would execute an unassigned word: a no-op, which a claim may wish to exclude
(93_implementation_defined.md U7). -/
def State.executesUnassigned (s : State) : Bool :=
  match s.status, s.fetch with
  | .running, .ok w => unassigned w
  | _, _ => false

/-- Pushes, the first value first (R28). -/
def State.pushAll (s : State) : List Word → Except Cause State
  | [] => .ok s
  | a :: rest =>
    match s.push a with
    | .ok t => t.pushAll rest
    | .error c => .error c

/-- `n` pops: the values, the first popped first, and the state after them (R28). -/
def State.popN (s : State) : Nat → Except Cause (List Word × State)
  | 0 => .ok ([], s)
  | n + 1 =>
    match s.pop with
    | .error c => .error c
    | .ok (a, t) =>
      match t.popN n with
      | .error c => .error c
      | .ok (rest, u) => .ok (a :: rest, u)

end Sys2Proof.Machine
end

