-- ==== Sys2Proof/Certificates/Slice0/Obligations.lean ====
section
/-!
DEFINITION. Certificates/Slice0/Obligations.lean: the statements for the provers, from the numbered rules of spec/. They hold
for every state, so for every value of the parameters of 00_scope.md R4; a statement that needs an invariant takes it as a
premise. Where a statement rests on a decision of the spec (`D<n>` of 92_eei_decisions.md) or on a log entry, its comment says so.
-/

open Sys2Proof Sys2Proof.Machine

/-! ## Encoding (30_encoding.md) -/

/-- Decoding the word of a well-formed instruction gives it back, every operand at every value (R91, R92, R104; the
opcode numbers are presumed, log 6; decisions D8, D9, D10, log 22; the ignored bits stand in the syntax, log 10). -/
def Obligations.DecodeEncodeRoundTrip : Prop := ∀ i : Instr, i.wellFormed = true → decode (encode i) = i

/-- Every one of the 65536 words decodes to a well-formed instruction whose word it is: decoding is total (R104) and drops no
bit (the opcode numbers are presumed, log 6; decisions D8, D9, D10, log 22; the ignored bits stand in the syntax, log 10). -/
def Obligations.EncodeDecodeRoundTrip : Prop := ∀ w : Word, (decode w).wellFormed = true ∧ encode (decode w) = w

/-- No two rows of the opcode table match the same word (R104, marked derived there; the opcode numbers are
presumed, log 6; decisions D8, D9, D10, log 22). -/
def Obligations.OpcodeRowsDisjoint : Prop :=
  ∀ (w : Word) (r r' : OpcodeRow), r ∈ opcodeTable → r' ∈ opcodeTable → r.hits w = true → r'.hits w = true → r = r'

/-- The decoder reads every word as the row of the opcode table that matches it, the fallback row where none does
(R94 to R98, R105; the opcode numbers are presumed, log 6; decisions D8, D9, D10). -/
def Obligations.DecoderFollowsTable : Prop := ∀ w : Word, (decode w).mnemonic = tableMnemonic w

/-- The words that decode to a no-op are exactly the unassigned words that R100 lists (decisions D8, D10; the opcode
numbers are presumed, log 6). -/
def Obligations.UnassignedWordsAreNops : Prop :=
  ∀ w : Word, (decode w = .nop w ↔ unassigned w = true) ∧ ((decode w).mnemonic = "NOP" ↔ unassigned w = true)

/-- At least one word of every family, its bits written out from R91 and R94 to R98, read right (the opcode numbers are
presumed, log 6; decisions D8, D9, D12, log 22). -/
def Obligations.SampleWordsDecode : Prop :=
  decode 0b0000000011100000 = .cls ∧ decode 0b0000000011101110 = .ret ∧
  decode 0b0001001000110100 = .jp 0x234 ∧ decode 0b0010101010111100 = .call 0xABC ∧
  decode 0b0011001100101010 = .seImm 3 0x2A ∧ decode 0b0101000100101111 = .seReg 1 2 0xF ∧
  decode 0b0100001100101010 = .sneImm 3 0x2A ∧ decode 0b0110111100000001 = .ldImm 15 1 ∧
  decode 0b1001000100100111 = .sneReg 1 2 7 ∧ decode 0b1010001100000000 = .ldI 0x300 ∧
  decode 0b1100000100001111 = .rnd 1 0x0F ∧
  decode 0b0111001000100000 = .addImm 2 0x20 ∧ decode 0b1000000100100111 = .subn 1 2 ∧
  decode 0b1000001000111110 = .shl 2 3 ∧ decode 0b1011001100000000 = .jpV0 0x300 ∧
  decode 0b1101000000010010 = .drw 0 1 2 ∧ decode 0b1110010010100001 = .sknp 4 ∧
  decode 0b1111001100001010 = .ldVxK 3 ∧ decode 0b1111000101010101 = .ldMemVx 1 ∧
  decode 0b1111000101100101 = .ldVxMem 1 ∧ decode 0b1000000100101000 = .nop 0x8128

/-- The fields of R91 are the digits of the word, and they overlap as R91 says. -/
def Obligations.FieldsAreTheWordsDigits : Prop :=
  ∀ w : Word,
    w.toNat = (fieldOp w).toNat * 4096 + (fieldX w).val * 256 + (fieldY w).val * 16 + (fieldN w).toNat ∧
    (fieldKK w).toNat = (fieldY w).val * 16 + (fieldN w).toNat ∧
    (fieldNNN w).toNat = (fieldX w).val * 256 + (fieldKK w).toNat

/-- Bits an instruction ignores have no effect (R99: the low nibble of families 5 and 9, decision D9; R101: the `y` field of
`8xy6` and `8xyE`, decision D12; every bit of an unassigned word, R124). That the shifts are nibbles 6 and E of family 8 (R96)
and which words are unassigned (R100) rest on the opcode numbers, which are presumed (log 6), and the latter on decisions D8
and D10 (R95, R97; log 22); the ignored bits stand in the syntax only (log 10). -/
def Obligations.IgnoredBitsHaveNoEffect : Prop :=
  ∀ (w w' : Word) (s : State),
    ((fieldOp w = 0x5 ∨ fieldOp w = 0x9) → w &&& 0xFFF0 = w' &&& 0xFFF0 → exec (decode w) s = exec (decode w') s) ∧
    (fieldOp w = 0x8 → (fieldN w = 0x6 ∨ fieldN w = 0xE) → w &&& 0xFF0F = w' &&& 0xFF0F →
      exec (decode w) s = exec (decode w') s) ∧
    (unassigned w = true → unassigned w' = true → exec (decode w) s = exec (decode w') s)

/-! ## One step (48_host_operations.md R203) -/

/-- When both bytes at `pc` are in memory and the machine runs, a step is the execution of the instruction that the big-endian
word there decodes to, `pc` already advanced by 2. -/
def Obligations.StepRunsDecodedInstruction : Prop :=
  ∀ (s : State) (w : Word), s.status = .running → s.pc.toNat + 1 < s.params.memSize →
    w.toNat = (s.byte s.pc.toNat).toNat * 256 + (s.byte (s.pc.toNat + 1)).toNat →
    step s = exec (decode w) { s with pc := s.pc + 2 }

/-- A fetch that leaves memory (R63) latches the first address out of range (R231), and nothing else changes, not even `pc`
(R203; R240, decision D23). -/
def Obligations.FetchOutOfRangeFaults : Prop :=
  ∀ s : State, s.status = .running →
    (s.params.memSize ≤ s.pc.toNat →
      step s = .next { s with status := .faulted (.memoryOutOfBounds s.pc.toNat) }) ∧
    (s.pc.toNat + 1 = s.params.memSize →
      step s = .next { s with status := .faulted (.memoryOutOfBounds s.params.memSize) })

/-- A word stored at `pc`, high byte first, is what the very next step executes: no cache stands between (R63, R70, R71). -/
def Obligations.StoredWordIsFetched : Prop :=
  ∀ (s t : State) (w : Word), s.status = .running → s.storeBytes s.pc.toNat (bytesOfWord w) = .ok t →
    step t = exec (decode w) { t with pc := s.pc + 2 }

/-- `step` answers a next state from every state (R9): no word is refused, and a fault is a next state (log 1). -/
def Obligations.StepIsTotal : Prop := ∀ s : State, ∃ t, step s = .next t

/-- Faults are precise (R240, decision D23; log 13): the faulting step leaves the state before it, plus the latch, plus the
increment of `pc` exactly when the fetch had succeeded. -/
def Obligations.FaultsArePrecise : Prop :=
  ∀ (s t : State) (c : Cause), s.status = .running → step s = .next t → t.status = .faulted c →
    (s.pc.toNat + 1 < s.params.memSize → t = { s with pc := s.pc + 2, status := .faulted c }) ∧
    (s.params.memSize ≤ s.pc.toNat + 1 → t = { s with status := .faulted c })

/-- What a step can latch (R230): a fetch only cause 1, an instruction only the causes of its row, never causes 5 and 6 (the
codes are decision D24). -/
def Obligations.StepRaisesOnlyItsCauses : Prop :=
  ∀ (s t : State) (c : Cause), s.status = .running → step s = .next t → t.status = .faulted c →
    (c.code = 1 ∨ c.code = 2 ∨ c.code = 3 ∨ c.code = 4) ∧
    ((∃ a, c = .memoryOutOfBounds a ∧ s.params.memSize ≤ s.pc.toNat + 1) ∨
      ∃ w, s.fetch = .ok w ∧ (decode w).mayRaise c = true)

/-- The access matrix (R36, R22): an instruction that does not latch a fault changes only what its row names (`RET` no stack
slot, decision D31, `ADD Vx, Vy` the flag only on carry); one that does
latches a cause of its row and changes nothing else (R240, decision D23). -/
def Obligations.AccessMatrix : Prop :=
  ∀ (i : Instr) (s : State), ∃ t, exec i s = .next t ∧
    (Frame (i.touches s) s t ∨ ∃ c, i.mayRaise c = true ∧ t = { s with status := .faulted c })

/-- No step writes a key (R31), the parameters (R37), or a timer, but for `LD DT, Vx` and `LD ST, Vx` (R29). -/
def Obligations.StepLeavesKeysAndTimers : Prop :=
  ∀ s t : State, step s = .next t →
    t.keys = s.keys ∧ t.params = s.params ∧
    (t.dt = s.dt ∨ ∃ w x, s.fetch = .ok w ∧ decode w = .ldDTVx x ∧ t.dt = s.reg x) ∧
    (t.st = s.st ∨ ∃ w x, s.fetch = .ok w ∧ decode w = .ldSTVx x ∧ t.st = s.reg x)

/-- A finished program (R212 c) is a fixed point of the step; that its word is `1nnn` (R94) is a presumed opcode number (log 6). -/
def Obligations.FinishedProgramStays : Prop := ∀ s : State, s.Inv → s.Finished → step s = .next s

/-! ## Invariants -/

/-- Every step keeps the machine's invariants: memory canonical, `sp` within the stack (R27), sizes as R20 gives them. -/
def Obligations.StepKeepsInvariants : Prop := ∀ s t : State, s.Inv → step s = .next t → t.Inv

/-- The invariants hold after reset, at the defaults and at every set of parameters that meets R4. -/
def Obligations.ResetHasInvariants : Prop :=
  State.reset.Inv ∧ State.reset.PcInv ∧
    ∀ p : Params, p.wellFormed = true → (State.resetOf p).Inv ∧ (State.resetOf p).PcInv

/-- Every host operation keeps the machine's invariants and the bounds on `pc`, so every schedule does (R200, R209). -/
def Obligations.HostRunsKeepInvariants : Prop :=
  ∀ (ops : List HostOp) (s : State), s.Inv → (hostRun ops s).Inv ∧ (s.PcInv → (hostRun ops s).PcInv)

/-- The bounds on `pc` and on return addresses that R26 and R120 derive: no sum on `pc` wraps 16 bits. -/
def Obligations.StepKeepsPcBound : Prop := ∀ s t : State, s.Inv → s.PcInv → step s = .next t → t.PcInv

/-! ## Memory (20_memory.md) -/

/-- `MemWrite` then `MemRead` (R62): the byte written is read back, every other address keeps its byte, and an access above
`MEM_SIZE - 1` faults with its address. -/
def Obligations.ByteStoreAndLoad : Prop :=
  ∀ (s : State) (a : Nat) (b : Byte),
    (a < s.params.memSize → ∃ t, s.storeBytes a [b] = .ok t ∧ t.memRead1 a = .ok b ∧
      (∀ r, r ≠ a → t.byte r = s.byte r) ∧ t = { s with mem := t.mem }) ∧
    (s.params.memSize ≤ a →
      s.storeBytes a [b] = .error (.memoryOutOfBounds a) ∧ s.memRead1 a = .error (.memoryOutOfBounds a))

/-- The memory instructions fault with the LOWEST address of their range above `MEM_SIZE - 1`, which is
`max(I, MEM_SIZE)`, and change nothing (R231, R240 D23; R172, R195, R196, R197). -/
def Obligations.MemoryInstructionsFaultLowest : Prop :=
  ∀ (x y : Reg) (n : Nibble) (s : State),
    let stop : Host.Outcome State Fault Refusal :=
      .next { s with status := .faulted (.memoryOutOfBounds (max s.i.toNat s.params.memSize)) }
    (n ≠ 0 → s.params.memSize < s.i.toNat + n.toNat → exec (.drw x y n) s = stop) ∧
    (s.params.memSize < s.i.toNat + 3 → exec (.ldBVx x) s = stop) ∧
    (s.params.memSize < s.i.toNat + (x.val + 1) → exec (.ldMemVx x) s = stop ∧ exec (.ldVxMem x) s = stop)

/-! ## Control transfer (40_flow.md); `pc` on entry is the fetch address plus 2 -/

/-- `RET` (R120): the newest return address goes to `pc` and `sp` loses 1; the slot keeps its value (R28, decision D31); an
empty stack is a fault that changes nothing else (R240, decision D23). -/
def Obligations.ReturnPops : Prop :=
  ∀ (s : State) (a : Word),
    (s.sp ≠ 0 → s.stack[s.sp.toNat - 1]? = some a →
      ∃ t, exec .ret s = .next t ∧ t.pc = a ∧ t.sp.toNat = s.sp.toNat - 1 ∧ t.stack = s.stack ∧
        Frame { pc := true, sp := true } s t) ∧
    (s.sp = 0 → exec .ret s = .next { s with status := .faulted .stackUnderflow })

/-- `JP nnn` (R121): `pc` becomes the target, zero-extended. -/
def Obligations.JumpGoesToTarget : Prop :=
  ∀ (nnn : Addr) (s : State), ∃ t, exec (.jp nnn) s = .next t ∧ t.pc.toNat = nnn.toNat ∧ Frame { pc := true } s t

/-- `CALL nnn` (R122, decision D35): the incremented `pc` goes to the next free slot and `sp` gains 1; a full stack is a fault
that changes nothing else (R240, decision D23). -/
def Obligations.CallPushesReturnAddress : Prop :=
  ∀ (nnn : Addr) (s : State),
    (s.Inv → s.sp.toNat < s.params.stackDepth →
      ∃ t, exec (.call nnn) s = .next t ∧ t.pc.toNat = nnn.toNat ∧ t.sp.toNat = s.sp.toNat + 1 ∧
        t.stack[s.sp.toNat]? = some s.pc ∧ (∀ j, j ≠ s.sp.toNat → t.stack[j]? = s.stack[j]?) ∧
        Frame { pc := true, sp := true, stack := true } s t) ∧
    (s.sp.toNat = s.params.stackDepth →
      exec (.call nnn) s = .next { s with status := .faulted (.stackOverflow s.pc) })

/-- The stack is strictly LIFO (R28): any values that fit are popped in reverse order, and `sp` comes back. -/
def Obligations.StackIsLifo : Prop :=
  ∀ (s : State) (values : List Word), s.Inv → s.sp.toNat + values.length ≤ s.params.stackDepth →
    ∃ t u, s.pushAll values = .ok t ∧ t.popN values.length = .ok (values.reverse, u) ∧ u.sp = s.sp

/-- A `RET` after a `CALL` resumes after the `CALL` and leaves the stack pointer where it was (R122, decision D35;
R120; the slot keeps its value, R28, decision D31). -/
def Obligations.ReturnUndoesCall : Prop :=
  ∀ (nnn : Addr) (s : State), s.Inv → s.sp.toNat < s.params.stackDepth →
    ∃ t u, exec (.call nnn) s = .next t ∧ exec .ret t = .next u ∧ u = { s with stack := t.stack }

/-- `JP V0, nnn` (R123, decision D14) under either value of `JP_V0_ACCUMULATE`: no reduction to 12 bits. -/
def Obligations.IndexedJump : Prop :=
  ∀ (nnn : Addr) (s : State), ∃ t, exec (.jpV0 nnn) s = .next t ∧
    (s.params.jpV0Accumulate = false → t.pc.toNat = nnn.toNat + (s.reg 0).toNat) ∧
    (s.params.jpV0Accumulate = true → t.pc.toNat = (s.pc.toNat + nnn.toNat + (s.reg 0).toNat) % 65536) ∧
    Frame { pc := true } s t

/-- An unassigned word only advances `pc` by 2 (R124). Which words are unassigned (R100) rests on the opcode numbers, which are
presumed (log 6), and on decisions D8 and D10 (R95, R97; log 22). -/
def Obligations.NopOnlyAdvances : Prop :=
  ∀ (w : Word) (s : State), exec (.nop w) s = .next s ∧
    (s.status = .running → s.fetch = .ok w → unassigned w = true → step s = .next { s with pc := s.pc + 2 })

/-! ## Skips (41_skip.md) -/

/-- `SE Vx, kk` and `SNE Vx, kk` (R130, R131): two bytes more exactly when the condition holds; no register is written. -/
def Obligations.SkipOnByte : Prop :=
  ∀ (x : Reg) (kk : Byte) (s : State),
    (∃ t, exec (.seImm x kk) s = .next t ∧
      t.pc.toNat = (if (s.reg x).toNat = kk.toNat then (s.pc.toNat + 2) % 65536 else s.pc.toNat) ∧
      Frame { pc := true } s t) ∧
    (∃ t, exec (.sneImm x kk) s = .next t ∧
      t.pc.toNat = (if (s.reg x).toNat = kk.toNat then s.pc.toNat else (s.pc.toNat + 2) % 65536) ∧
      Frame { pc := true } s t)

/-- `SE Vx, Vy` and `SNE Vx, Vy` (R132, R133): two bytes more exactly when the condition holds, whatever the low
nibble. That the nibble is ignored is decision D9 (R99; log 22), and the
instruction carries it as syntax only (log 10). -/
def Obligations.SkipOnRegister : Prop :=
  ∀ (x y : Reg) (n : Nibble) (s : State),
    (∃ t, exec (.seReg x y n) s = .next t ∧
      t.pc.toNat = (if (s.reg x).toNat = (s.reg y).toNat then (s.pc.toNat + 2) % 65536 else s.pc.toNat) ∧
      Frame { pc := true } s t) ∧
    (∃ t, exec (.sneReg x y n) s = .next t ∧
      t.pc.toNat = (if (s.reg x).toNat = (s.reg y).toNat then s.pc.toNat else (s.pc.toNat + 2) % 65536) ∧
      Frame { pc := true } s t)

/-! ## Immediate loads, immediate add, random (42_load_imm.md) -/

/-- `LD Vx, kk` and `ADD Vx, kk` (R140, R141): the add wraps at 256 and writes no flag. -/
def Obligations.LoadAndAddByte : Prop :=
  ∀ (x : Reg) (kk : Byte) (s : State),
    (∃ t, exec (.ldImm x kk) s = .next t ∧ t.reg x = kk ∧ Frame { regs := [x] } s t) ∧
    (∃ t, exec (.addImm x kk) s = .next t ∧ (t.reg x).toNat = ((s.reg x).toNat + kk.toNat) % 256 ∧
      Frame { regs := [x] } s t)

/-- `LD I, nnn` (R142): `I` becomes the address, zero-extended. -/
def Obligations.LoadIndexImmediate : Prop :=
  ∀ (nnn : Addr) (s : State), ∃ t, exec (.ldI nnn) s = .next t ∧ t.i.toNat = nnn.toNat ∧ Frame { i := true } s t

/-- `RND Vx, kk` (R143, decision D27; log 4): the drawn byte, whatever it is, under the mask; each draw is counted. -/
def Obligations.RandomByteIsMasked : Prop :=
  ∀ (x : Reg) (kk : Byte) (s : State),
    (∃ t, exec (.rnd x kk) s = .next t ∧ t.reg x = Config.randByte s.draws &&& kk ∧
      t.reg x &&& ~~~kk = 0 ∧ (kk = 0 → t.reg x = 0) ∧ t.draws = s.draws + 1 ∧
      Frame { regs := [x], draws := true } s t) ∧
    (∀ r : Byte, (s.maskInto r x kk).reg x = r &&& kk)

/-! ## Register-register group (43_alu.md) -/

/-- `LD`, `OR`, `AND`, `XOR` (R151 to R154, decision D29): the result, and no flag. -/
def Obligations.AssignAndBitwise : Prop :=
  ∀ (x y : Reg) (s : State),
    (∃ t, exec (.ldReg x y) s = .next t ∧ t.reg x = s.reg y ∧ Frame { regs := [x] } s t) ∧
    (∃ t, exec (.or x y) s = .next t ∧ t.reg x = s.reg x ||| s.reg y ∧ Frame { regs := [x] } s t) ∧
    (∃ t, exec (.and x y) s = .next t ∧ t.reg x = s.reg x &&& s.reg y ∧ Frame { regs := [x] } s t) ∧
    (∃ t, exec (.xor x y) s = .next t ∧ t.reg x = s.reg x ^^^ s.reg y ∧ Frame { regs := [x] } s t)

/-- `ADD Vx, Vy` (R155; R150, decision D11, log 11, where `x` or `y` is 15): the flag is set on carry and NOT written otherwise. -/
def Obligations.AddSetsCarryOnly : Prop :=
  ∀ (x y : Reg) (s : State), ∃ t, exec (.addReg x y) s = .next t ∧
    (t.reg x).toNat = ((s.reg x).toNat + (s.reg y).toNat) % 256 ∧
    (x ≠ vf → t.reg vf = if 255 < (s.reg x).toNat + (s.reg y).toNat then 1 else s.reg vf) ∧
    Frame { regs := [x, vf] } s t

/-- `SUB Vx, Vy` (R156; R150, decision D11, log 11, where `x` or `y` is 15): the flag is always written, 1 when there is no borrow. -/
def Obligations.SubtractSetsNotBorrow : Prop :=
  ∀ (x y : Reg) (s : State), ∃ t, exec (.sub x y) s = .next t ∧
    (t.reg x).toNat = ((s.reg x).toNat + 256 - (s.reg y).toNat) % 256 ∧
    (x ≠ vf → t.reg vf = if (s.reg y).toNat ≤ (s.reg x).toNat then 1 else 0) ∧
    Frame { regs := [x, vf] } s t

/-- `SUBN Vx, Vy` (R158, marked derived there; R150 with decision D11): the operands exchanged, the destination still `V[x]`. -/
def Obligations.ReversedSubtract : Prop :=
  ∀ (x y : Reg) (s : State), ∃ t, exec (.subn x y) s = .next t ∧
    (t.reg x).toNat = ((s.reg y).toNat + 256 - (s.reg x).toNat) % 256 ∧
    (x ≠ vf → t.reg vf = if (s.reg x).toNat ≤ (s.reg y).toNat then 1 else 0) ∧
    Frame { regs := [x, vf] } s t

/-- `SHR Vx` (R157, decision D12): in place, the bit shifted out to the flag, the `y` field ignored. -/
def Obligations.ShiftRight : Prop :=
  ∀ (x y : Reg) (s : State), ∃ t, exec (.shr x y) s = .next t ∧
    (t.reg x).toNat = (s.reg x).toNat / 2 ∧
    (x ≠ vf → (t.reg vf).toNat = (s.reg x).toNat % 2) ∧
    Frame { regs := [x, vf] } s t

/-- `SHL Vx` (R159, decisions D12, D13): in place; the flag is the old bit `SHL_FLAG_BIT`, whichever that is. -/
def Obligations.ShiftLeft : Prop :=
  ∀ (x y : Reg) (s : State), ∃ t, exec (.shl x y) s = .next t ∧
    (t.reg x).toNat = (s.reg x).toNat * 2 % 256 ∧
    (x ≠ vf → (t.reg vf).toNat = (s.reg x).toNat / 2 ^ s.params.shlFlagBit % 2) ∧
    Frame { regs := [x, vf] } s t

/-! ## Display (44_display.md) -/

/-- `CLS` (R171): every cell off, no flag. -/
def Obligations.ClearDisplay : Prop :=
  ∀ s : State, ∃ t, exec .cls s = .next t ∧ (∀ cy cx, t.fb.cell cy cx = false) ∧ Frame { fb := true } s t

/-- `DRW Vx, Vy, n` (R170, R172; bit 7 leftmost, decision D21, log 20; `n` = 0, decision D22) at every display size: a cell ends
inverted exactly when an odd number of the sprite's set bits landed on it, and the flag is 1 exactly when some set bit, in the
order of R170, found its cell lit just before its own toggle. -/
def Obligations.DrawTogglesCells : Prop :=
  ∀ (x y : Reg) (n : Nibble) (s : State), s.Inv → (n = 0 ∨ s.i.toNat + n.toNat ≤ s.params.memSize) →
    let cells := spriteCells s.params (s.reg x).toNat (s.reg y).toNat
      ((List.range n.toNat).map fun row => s.byte (s.i.toNat + row))
    ∃ t, exec (.drw x y n) s = .next t ∧
      (∀ cy cx, t.fb.cell cy cx = (s.fb.cell cy cx ^^ decide (cells.count (cy, cx) % 2 = 1))) ∧
      (t.reg vf = 1 ∨ t.reg vf = 0) ∧
      (t.reg vf = 1 ↔ ∃ k, ∃ h : k < cells.length,
        (s.fb.cell cells[k].1 cells[k].2 ^^ decide ((cells.take k).count cells[k] % 2 = 1)) = true) ∧
      Frame { regs := [vf], fb := true } s t

/-- `DRW` where a sprite cannot meet itself (R170 e, D21, D22: width at least 8, height at least 15), in the words of the rule: a cell is
inverted exactly when a set bit lands on it, coordinates wrapped, and the flag says whether a set bit landed on a lit cell. -/
def Obligations.DrawWithoutSelfOverlap : Prop :=
  ∀ (x y : Reg) (n : Nibble) (s : State), s.Inv → 8 ≤ s.params.displayW → 15 ≤ s.params.displayH →
    (n = 0 ∨ s.i.toNat + n.toNat ≤ s.params.memSize) →
    let lands (row col cy cx : Nat) : Prop :=
      row < n.toNat ∧ col < 8 ∧ (s.byte (s.i.toNat + row)).getLsbD (7 - col) = true ∧
        cy = ((s.reg y).toNat + row) % s.params.displayH ∧ cx = ((s.reg x).toNat + col) % s.params.displayW
    ∃ t, exec (.drw x y n) s = .next t ∧
      (∀ cy cx, (t.fb.cell cy cx ≠ s.fb.cell cy cx ↔ ∃ row col, lands row col cy cx)) ∧
      (t.reg vf = 1 ∨ t.reg vf = 0) ∧
      (t.reg vf = 1 ↔ ∃ row col cy cx, lands row col cy cx ∧ s.fb.cell cy cx = true)

/-- Drawing the same sprite at the same place twice changes no cell (R170, decision D21), at every display size. -/
def Obligations.DrawTwiceRestores : Prop :=
  ∀ (p : Params) (x0 y0 : Nat) (rows : List Byte) (fb : Display), 1 ≤ p.displayW → 1 ≤ p.displayH →
    fb.length = p.displayH → (∀ row ∈ fb, row.length = p.displayW) →
    (blit p x0 y0 rows (blit p x0 y0 rows fb).fb).fb = fb

/-! ## Keys (45_keys.md) -/

/-- `SKP` and `SKNP` (R180, R181, decision D30): the whole register is the key's index, and an index above 15 is a fault
that changes nothing else (R240, decision D23). -/
def Obligations.KeySkips : Prop :=
  ∀ (x k : Reg) (s : State),
    ((s.reg x).toNat = k.val →
      (∃ t, exec (.skp x) s = .next t ∧
        t.pc.toNat = (if s.keys[k.val] = true then (s.pc.toNat + 2) % 65536 else s.pc.toNat) ∧ Frame { pc := true } s t) ∧
      (∃ t, exec (.sknp x) s = .next t ∧
        t.pc.toNat = (if s.keys[k.val] = true then s.pc.toNat else (s.pc.toNat + 2) % 65536) ∧ Frame { pc := true } s t)) ∧
    (15 < (s.reg x).toNat →
      exec (.skp x) s = .next { s with status := .faulted (.keyIndexOutOfRange (s.reg x).toNat) } ∧
      exec (.sknp x) s = .next { s with status := .faulted (.keyIndexOutOfRange (s.reg x).toNat) })

/-- `LD Vx, K` with a key down (R182, decision D15; log 14): the lowest index that is down is stored. -/
def Obligations.WaitForKeyStoresLowest : Prop :=
  ∀ (x k : Reg) (s : State), s.keys[k.val] = true → (∀ j : Reg, j < k → s.keys[j.val] = false) →
    ∃ t, exec (.ldVxK x) s = .next t ∧ (t.reg x).toNat = k.val ∧ Frame { regs := [x] } s t

/-- `LD Vx, K` with no key down (R182, decision D15): the step changes nothing at all, so the instruction is fetched again. -/
def Obligations.WaitForKeyRefetches : Prop :=
  ∀ (x : Reg) (w : Word) (s : State), (∀ k : Reg, s.keys[k.val] = false) →
    (exec (.ldVxK x) s = .next { s with pc := s.pc - 2 }) ∧
    (s.status = .running → s.fetch = .ok w → decode w = .ldVxK x → step s = .next s)

/-! ## Timers, index register, memory transfers (46_timer_index_memory.md) -/

/-- `LD Vx, DT` reads the delay timer (R190), `LD DT, Vx` and `LD ST, Vx` write the timers (R191, R192). -/
def Obligations.TimerTransfers : Prop :=
  ∀ (x : Reg) (s : State),
    (∃ t, exec (.ldVxDT x) s = .next t ∧ t.reg x = s.dt ∧ Frame { regs := [x] } s t) ∧
    (∃ t, exec (.ldDTVx x) s = .next t ∧ t.dt = s.reg x ∧ Frame { dt := true } s t) ∧
    (∃ t, exec (.ldSTVx x) s = .next t ∧ t.st = s.reg x ∧ Frame { st := true } s t)

/-- `ADD I, Vx` (R193, decision D18): modulo 65536, no flag. -/
def Obligations.AddToIndex : Prop :=
  ∀ (x : Reg) (s : State), ∃ t, exec (.addIVx x) s = .next t ∧
    t.i.toNat = (s.i.toNat + (s.reg x).toNat) % 65536 ∧ Frame { i := true } s t

/-- `LD F, Vx` (R194, decision D16): five times the low nibble, always inside the glyph table. -/
def Obligations.GlyphAddressOfLowNibble : Prop :=
  ∀ (x : Reg) (s : State), ∃ t, exec (.ldFVx x) s = .next t ∧
    t.i.toNat = (s.reg x).toNat % 16 * 5 ∧ t.i.toNat ≤ 75 ∧ Frame { i := true } s t

/-- `LD B, Vx` (R195): hundreds, tens and ones at `I`, `I + 1`, `I + 2`, when all three are in memory. -/
def Obligations.DecimalDigitsStored : Prop :=
  ∀ (x : Reg) (s : State), s.i.toNat + 2 < s.params.memSize →
    ∃ t, exec (.ldBVx x) s = .next t ∧
      (t.byte s.i.toNat).toNat = (s.reg x).toNat / 100 ∧
      (t.byte (s.i.toNat + 1)).toNat = (s.reg x).toNat / 10 % 10 ∧
      (t.byte (s.i.toNat + 2)).toNat = (s.reg x).toNat % 10 ∧
      Frame { storeBase := s.i.toNat, storeLen := 3 } s t

/-- `LD [I], Vx` (R196, decision D17): `V[0]` to `V[x]` at `I` upward, when all are in memory; `I` is not modified. -/
def Obligations.RegistersStored : Prop :=
  ∀ (x : Reg) (s : State), s.i.toNat + x.val < s.params.memSize →
    ∃ t, exec (.ldMemVx x) s = .next t ∧ (∀ r : Reg, r ≤ x → t.byte (s.i.toNat + r.val) = s.reg r) ∧
      Frame { storeBase := s.i.toNat, storeLen := x.val + 1 } s t

/-- `LD Vx, [I]` (R197, decision D17): `V[0]` to `V[x]` from `I` upward, when all are in memory; `I` is not modified. -/
def Obligations.RegistersLoaded : Prop :=
  ∀ (x : Reg) (s : State), s.i.toNat + x.val < s.params.memSize →
    ∃ t, exec (.ldVxMem x) s = .next t ∧ (∀ r : Reg, r ≤ x → t.reg r = s.byte (s.i.toNat + r.val)) ∧
      Frame { regs := regsThrough x } s t

/-! ## Host operations (48_host_operations.md) -/

/-- `RESET` from any state (R201, R35): everything zero but `pc`, which is `LOAD_OFFSET` (decision D5), and the glyph table; the random draws
go on (log 4, the model's choice). -/
def Obligations.ResetState : Prop :=
  ∀ s : State, s.params.wellFormed = true →
    let t := hostApply .reset s
    (∀ r, t.reg r = 0) ∧ t.i = 0 ∧ t.pc.toNat = s.params.loadOffset ∧ t.sp = 0 ∧
    (∀ j, j < s.params.stackDepth → t.stack[j]? = some 0) ∧ t.stack.length = s.params.stackDepth ∧
    t.dt = 0 ∧ t.st = 0 ∧ (∀ cy cx, t.fb.cell cy cx = false) ∧ (∀ k : Reg, t.keys[k.val] = false) ∧
    (∀ a, a < 80 → s.params.glyphTable[a]? = some (t.byte a)) ∧ (∀ a, 80 ≤ a → t.byte a = 0) ∧
    t.status = .running ∧ t.params = s.params ∧ t.draws = s.draws

/-- `LOAD_IMAGE` on a running machine (R202, decisions D28, D37): the bytes at `LOAD_OFFSET` upward and nothing else, or a
fault and nothing else. -/
def Obligations.LoadImageCopies : Prop :=
  ∀ (bytes : List Byte) (s : State), s.status = .running →
    (s.params.loadOffset + bytes.length ≤ s.params.memSize →
      (∀ j, (h : j < bytes.length) → (hostApply (.loadImage bytes) s).byte (s.params.loadOffset + j) = bytes[j]) ∧
      Frame { storeBase := s.params.loadOffset, storeLen := bytes.length } s (hostApply (.loadImage bytes) s)) ∧
    (s.params.memSize < s.params.loadOffset + bytes.length →
      hostApply (.loadImage bytes) s = { s with status := .faulted (.imageTooLarge bytes.length) })

/-- `TICK` on a running machine (R204, decision D26, log 19): each timer loses 1 unless it is 0; nothing else changes. -/
def Obligations.TickCountsDown : Prop :=
  ∀ s : State, s.status = .running →
    let t := hostApply .tick s
    t.dt.toNat = s.dt.toNat - 1 ∧ t.st.toNat = s.st.toNat - 1 ∧ t = { s with dt := t.dt, st := t.st }

/-- `KEY_PRESS` and `KEY_RELEASE` on a running machine (R205, R206, decision D37): one key bit, or a fault. -/
def Obligations.KeyEventsSetOneBit : Prop :=
  ∀ (k : Nat) (s : State), s.status = .running →
    (∀ h : k < 16,
      hostApply (.keyPress k) s = { s with keys := s.keys.set k true } ∧
      hostApply (.keyRelease k) s = { s with keys := s.keys.set k false }) ∧
    (15 < k →
      hostApply (.keyPress k) s = { s with status := .faulted (.keyIndexOutOfRange k) } ∧
      hostApply (.keyRelease k) s = { s with status := .faulted (.keyIndexOutOfRange k) })

/-- `PIXEL` (R207, decision D34): the cell in every status and no change, or, out of range, a fault,
latched and reported (R200, R240), unless one is latched already. -/
def Obligations.PixelReads : Prop :=
  ∀ (x y : Nat) (s : State),
    (x < s.params.displayW → y < s.params.displayH →
      hostReport (.pixel x y) s = .pixel (s.fb.cell y x) ∧ hostApply (.pixel x y) s = s) ∧
    ((s.params.displayW ≤ x ∨ s.params.displayH ≤ y) →
      (s.status = .running →
        hostApply (.pixel x y) s = { s with status := .faulted (.displayCoordinateOutOfRange x y) } ∧
        hostReport (.pixel x y) s = .fault (.displayCoordinateOutOfRange x y)) ∧
      (∀ c, s.status = .faulted c → hostApply (.pixel x y) s = s ∧ hostReport (.pixel x y) s = .nothing))

/-- A latched fault stays until `RESET` (R210, R241, decision D25): no other operation changes anything, and those that would
report the latched fault. -/
def Obligations.FaultIsSticky : Prop :=
  ∀ (s : State) (c : Cause), s.status = .faulted c →
    step s = .next s ∧
    (∀ op : HostOp, op ≠ .reset → hostApply op s = s) ∧
    (∀ op : HostOp, (op = .step ∨ op = .tick ∨ (∃ k, op = .keyPress k) ∨ (∃ k, op = .keyRelease k) ∨
      ∃ bytes, op = .loadImage bytes) → hostReport op s = .fault c) ∧
    (hostApply .reset s).status = .running
end

