-- ==== Sys2Proof/Laws/Decode.lean ====
section
/-!
SUPPORT. Laws/Decode.lean: the fields of a word and the words of the encoder as numbers (30_encoding.md R91), and the fields
of an encoded word.
-/

namespace Sys2Proof

/-! ### Fields as numbers -/

theorem fieldOp_toNat (w : Word) : (fieldOp w).toNat = w.toNat / 4096 := by
  have := w.isLt
  simp only [fieldOp, BitVec.extractLsb_toNat, Nat.shiftRight_eq_div_pow]; omega

theorem fieldX_val (w : Word) : (fieldX w).val = w.toNat / 256 % 16 := by
  show (w.extractLsb 11 8).toNat = _
  simp only [BitVec.extractLsb_toNat, Nat.shiftRight_eq_div_pow]

theorem fieldY_val (w : Word) : (fieldY w).val = w.toNat / 16 % 16 := by
  show (w.extractLsb 7 4).toNat = _
  simp only [BitVec.extractLsb_toNat, Nat.shiftRight_eq_div_pow]

theorem fieldN_toNat (w : Word) : (fieldN w).toNat = w.toNat % 16 := by
  simp only [fieldN, BitVec.extractLsb_toNat, Nat.shiftRight_eq_div_pow]; omega

theorem fieldKK_toNat (w : Word) : (fieldKK w).toNat = w.toNat % 256 := by
  simp only [fieldKK, BitVec.extractLsb_toNat, Nat.shiftRight_eq_div_pow]; omega

theorem fieldNNN_toNat (w : Word) : (fieldNNN w).toNat = w.toNat % 4096 := by
  simp only [fieldNNN, BitVec.extractLsb_toNat, Nat.shiftRight_eq_div_pow]; omega

/-! ### Encoded words as numbers -/

theorem append_toNat {n m : Nat} (a : BitVec n) (b : BitVec m) : (a ++ b).toNat = a.toNat * 2 ^ m + b.toNat := by
  rw [BitVec.toNat_append, ← Nat.shiftLeft_add_eq_or_of_lt b.isLt, Nat.shiftLeft_eq]

theorem regField_toNat (x : Reg) : (regField x).toNat = x.val := rfl

theorem wordNNN_toNat (op : Nibble) (nnn : Addr) : (wordNNN op nnn).toNat = op.toNat * 4096 + nnn.toNat :=
  append_toNat op nnn

theorem wordXKK_toNat (op : Nibble) (x : Reg) (kk : Byte) :
    (wordXKK op x kk).toNat = op.toNat * 4096 + x.val * 256 + kk.toNat := by
  rw [wordXKK, append_toNat, append_toNat, regField_toNat]; omega

theorem wordXYN_toNat (op : Nibble) (x y : Reg) (n : Nibble) :
    (wordXYN op x y n).toNat = op.toNat * 4096 + x.val * 256 + y.val * 16 + n.toNat := by
  rw [wordXYN, append_toNat, append_toNat, append_toNat, regField_toNat, regField_toNat]; omega

/-! ### Fields of encoded words -/

section
variable (op n : Nibble) (x y : Reg) (kk : Byte) (nnn : Addr)

@[simp] theorem fieldOp_wordNNN : fieldOp (wordNNN op nnn) = op := by
  apply BitVec.eq_of_toNat_eq; rw [fieldOp_toNat, wordNNN_toNat]; have := nnn.isLt; omega
@[simp] theorem fieldNNN_wordNNN : fieldNNN (wordNNN op nnn) = nnn := by
  apply BitVec.eq_of_toNat_eq; rw [fieldNNN_toNat, wordNNN_toNat]; have := nnn.isLt; omega
@[simp] theorem fieldOp_wordXKK : fieldOp (wordXKK op x kk) = op := by
  apply BitVec.eq_of_toNat_eq; rw [fieldOp_toNat, wordXKK_toNat]; have := kk.isLt; omega
@[simp] theorem fieldX_wordXKK : fieldX (wordXKK op x kk) = x := by
  apply Fin.ext; rw [fieldX_val, wordXKK_toNat]; have := kk.isLt; omega
@[simp] theorem fieldKK_wordXKK : fieldKK (wordXKK op x kk) = kk := by
  apply BitVec.eq_of_toNat_eq; rw [fieldKK_toNat, wordXKK_toNat]; have := kk.isLt; omega
@[simp] theorem fieldOp_wordXYN : fieldOp (wordXYN op x y n) = op := by
  apply BitVec.eq_of_toNat_eq; rw [fieldOp_toNat, wordXYN_toNat]; have := n.isLt; omega
@[simp] theorem fieldX_wordXYN : fieldX (wordXYN op x y n) = x := by
  apply Fin.ext; rw [fieldX_val, wordXYN_toNat]; have := n.isLt; omega
@[simp] theorem fieldY_wordXYN : fieldY (wordXYN op x y n) = y := by
  apply Fin.ext; rw [fieldY_val, wordXYN_toNat]; have := n.isLt; omega
@[simp] theorem fieldN_wordXYN : fieldN (wordXYN op x y n) = n := by
  apply BitVec.eq_of_toNat_eq; rw [fieldN_toNat, wordXYN_toNat]; have := n.isLt; omega

end

/-! ### A word from its fields -/

theorem word_eq_of_toNat {w v : Word} (h : w.toNat = v.toNat) : w = v := BitVec.eq_of_toNat_eq h

theorem wordNNN_fields (w : Word) : wordNNN (fieldOp w) (fieldNNN w) = w := by
  apply word_eq_of_toNat; rw [wordNNN_toNat, fieldOp_toNat, fieldNNN_toNat]; omega

theorem wordXKK_fields (w : Word) : wordXKK (fieldOp w) (fieldX w) (fieldKK w) = w := by
  apply word_eq_of_toNat; rw [wordXKK_toNat, fieldOp_toNat, fieldX_val, fieldKK_toNat]; omega

theorem wordXYN_fields (w : Word) : wordXYN (fieldOp w) (fieldX w) (fieldY w) (fieldN w) = w := by
  apply word_eq_of_toNat; rw [wordXYN_toNat, fieldOp_toNat, fieldX_val, fieldY_val, fieldN_toNat]; omega

/-! ### The masks of the opcode table -/

theorem mask_F000 (w : Word) : (w &&& 0xF000).toNat = w.toNat / 4096 * 4096 := by
  have h : w &&& (0xF000 : Word) = (w >>> 12) <<< 12 := by ext i hi; interval_cases i <;> simp
  rw [h]; have := w.isLt
  simp [Nat.shiftRight_eq_div_pow, Nat.shiftLeft_eq]; omega

theorem mask_000F (w : Word) : (w &&& 0x000F).toNat = w.toNat % 16 := by
  rw [BitVec.toNat_and]; exact Nat.and_two_pow_sub_one_eq_mod w.toNat 4

theorem mask_00FF (w : Word) : (w &&& 0x00FF).toNat = w.toNat % 256 := by
  rw [BitVec.toNat_and]; exact Nat.and_two_pow_sub_one_eq_mod w.toNat 8

/-- Masking the top nibble and some low bits keeps both. -/
theorem mask_top_or_low {w low : Word} (h : w &&& low < 4096) :
    (w &&& (0xF000 ||| low)).toNat = w.toNat / 4096 * 4096 + (w &&& low).toNat := by
  have hl : (w &&& low).toNat < 2 ^ 12 := h
  have ht : (w &&& (0xF000 ||| low)) = (w &&& 0xF000) ||| (w &&& low) := by
    ext i hi; simp [Bool.and_or_distrib_left]
  have hs : (w &&& (0xF000 : Word)).toNat = (w.toNat / 4096) <<< 12 := by rw [mask_F000, Nat.shiftLeft_eq]
  rw [ht, BitVec.toNat_or, hs, ← Nat.shiftLeft_add_eq_or_of_lt hl, Nat.shiftLeft_eq]

theorem mask_F00F (w : Word) : (w &&& 0xF00F).toNat = w.toNat / 4096 * 4096 + w.toNat % 16 := by
  have h : w &&& 0x000F < 4096 := by rw [BitVec.lt_def, mask_000F]; simp; omega
  rw [← mask_000F, ← mask_top_or_low h]; rfl

theorem mask_F0FF (w : Word) : (w &&& 0xF0FF).toNat = w.toNat / 4096 * 4096 + w.toNat % 256 := by
  have h : w &&& 0x00FF < 4096 := by rw [BitVec.lt_def, mask_00FF]; simp; omega
  rw [← mask_00FF, ← mask_top_or_low h]; rfl

theorem mask_FFFF (w : Word) : w &&& 0xFFFF = w := by
  have h : (0xFFFF : Word) = BitVec.allOnes 16 := rfl
  rw [h, BitVec.and_allOnes]

/-- A word matches a row under mask `F000` when its top nibble is the row's. -/
theorem hits_F000 (name : String) (w pattern : Word) :
    OpcodeRow.hits ⟨name, 0xF000, pattern⟩ w = true ↔ w.toNat / 4096 * 4096 = pattern.toNat := by
  rw [OpcodeRow.hits, beq_iff_eq, ← mask_F000]; exact ⟨fun h => h ▸ rfl, BitVec.eq_of_toNat_eq⟩

theorem hits_F00F (name : String) (w pattern : Word) :
    OpcodeRow.hits ⟨name, 0xF00F, pattern⟩ w = true ↔ w.toNat / 4096 * 4096 + w.toNat % 16 = pattern.toNat := by
  rw [OpcodeRow.hits, beq_iff_eq, ← mask_F00F]; exact ⟨fun h => h ▸ rfl, BitVec.eq_of_toNat_eq⟩

theorem hits_F0FF (name : String) (w pattern : Word) :
    OpcodeRow.hits ⟨name, 0xF0FF, pattern⟩ w = true ↔ w.toNat / 4096 * 4096 + w.toNat % 256 = pattern.toNat := by
  rw [OpcodeRow.hits, beq_iff_eq, ← mask_F0FF]; exact ⟨fun h => h ▸ rfl, BitVec.eq_of_toNat_eq⟩

theorem hits_FFFF (name : String) (w pattern : Word) :
    OpcodeRow.hits ⟨name, 0xFFFF, pattern⟩ w = true ↔ w = pattern := by
  rw [OpcodeRow.hits, beq_iff_eq, mask_FFFF]

/-! ### An encoded word matches a row with the same fixed fields -/

theorem hits_wordNNN (name : String) {pattern : Word} (op : Nibble) (nnn : Addr) (h : pattern = wordNNN op 0) :
    OpcodeRow.hits ⟨name, 0xF000, pattern⟩ (wordNNN op nnn) = true := by
  rw [hits_F000, h, wordNNN_toNat, wordNNN_toNat]; have := nnn.isLt; simp; omega

theorem hits_wordXKK (name : String) {pattern : Word} (op : Nibble) (x : Reg) (kk : Byte) (h : pattern = wordNNN op 0) :
    OpcodeRow.hits ⟨name, 0xF000, pattern⟩ (wordXKK op x kk) = true := by
  rw [hits_F000, h, wordXKK_toNat, wordNNN_toNat]; have := kk.isLt; simp; omega

theorem hits_wordXYN (name : String) {pattern : Word} (op : Nibble) (x y : Reg) (n : Nibble) (h : pattern = wordNNN op 0) :
    OpcodeRow.hits ⟨name, 0xF000, pattern⟩ (wordXYN op x y n) = true := by
  rw [hits_F000, h, wordXYN_toNat, wordNNN_toNat]; have := n.isLt; simp; omega

theorem hits_wordXY (name : String) {pattern : Word} (op : Nibble) (x y : Reg) (n : Nibble)
    (h : pattern = wordXYN op 0 0 n) : OpcodeRow.hits ⟨name, 0xF00F, pattern⟩ (wordXYN op x y n) = true := by
  rw [hits_F00F, h, wordXYN_toNat, wordXYN_toNat]; have := n.isLt; simp; omega

theorem hits_wordX (name : String) {pattern : Word} (op : Nibble) (x : Reg) (kk : Byte) (h : pattern = wordXKK op 0 kk) :
    OpcodeRow.hits ⟨name, 0xF0FF, pattern⟩ (wordXKK op x kk) = true := by
  rw [hits_F0FF, h, wordXKK_toNat, wordXKK_toNat]; have := kk.isLt; simp; omega

/-! ### The unassigned words (R100) -/

/-- The list of R100 in the digits of the word. -/
theorem unassigned_iff (w : Word) : unassigned w = true ↔
    (w.toNat / 4096 = 0 ∧ w.toNat ≠ 0xE0 ∧ w.toNat ≠ 0xEE) ∨
    (w.toNat / 4096 = 8 ∧ (w.toNat % 16 = 8 ∨ w.toNat % 16 = 9 ∨ w.toNat % 16 = 10 ∨ w.toNat % 16 = 11 ∨
      w.toNat % 16 = 12 ∨ w.toNat % 16 = 13 ∨ w.toNat % 16 = 15)) ∨
    (w.toNat / 4096 = 14 ∧ w.toNat % 256 ≠ 0x9E ∧ w.toNat % 256 ≠ 0xA1) ∨
    (w.toNat / 4096 = 15 ∧ ∀ k ∈ [0x07, 0x0A, 0x15, 0x18, 0x1E, 0x29, 0x33, 0x55, 0x65], w.toNat % 256 ≠ k) := by
  have h1 : ∀ v : Word, (w &&& 0xF000 = v) ↔ w.toNat / 4096 * 4096 = v.toNat := fun v => by
    rw [← mask_F000]; exact ⟨fun h => h ▸ rfl, BitVec.eq_of_toNat_eq⟩
  have h2 : ∀ v : Word, (w &&& 0x000F = v) ↔ w.toNat % 16 = v.toNat := fun v => by
    rw [← mask_000F]; exact ⟨fun h => h ▸ rfl, BitVec.eq_of_toNat_eq⟩
  have h3 : ∀ v : Word, (w &&& 0x00FF = v) ↔ w.toNat % 256 = v.toNat := fun v => by
    rw [← mask_00FF]; exact ⟨fun h => h ▸ rfl, BitVec.eq_of_toNat_eq⟩
  have h4 : ∀ v : Word, (w = v) ↔ w.toNat = v.toNat := fun v => ⟨fun h => h ▸ rfl, BitVec.eq_of_toNat_eq⟩
  unfold unassigned
  simp only [Bool.or_eq_true, Bool.and_eq_true, Bool.not_eq_true', beq_iff_eq, bne_iff_ne, List.contains_cons,
    List.contains_nil, Bool.or_false, Bool.or_eq_false_iff, beq_eq_false_iff_ne, ne_eq, h1, h2, h3, or_assoc]
  rw [h4 0xE0, h4 0xEE]
  simp
  omega

end Sys2Proof
end

