-- ==== Sys2Proof/Laws/State.lean ====
section
/-!
SUPPORT. Laws/State.lean: what each update of the state does to each field, true by rfl, so that no proof unfolds an update.
-/

namespace Sys2Proof.Machine

variable (s : State)

/-! ### setByte -/

@[simp] theorem State.setByte_params (a : Nat) (b : Byte) : (s.setByte a b).params = s.params := rfl
@[simp] theorem State.setByte_v (a : Nat) (b : Byte) : (s.setByte a b).v = s.v := rfl
@[simp] theorem State.setByte_i (a : Nat) (b : Byte) : (s.setByte a b).i = s.i := rfl
@[simp] theorem State.setByte_pc (a : Nat) (b : Byte) : (s.setByte a b).pc = s.pc := rfl
@[simp] theorem State.setByte_sp (a : Nat) (b : Byte) : (s.setByte a b).sp = s.sp := rfl
@[simp] theorem State.setByte_stack (a : Nat) (b : Byte) : (s.setByte a b).stack = s.stack := rfl
@[simp] theorem State.setByte_dt (a : Nat) (b : Byte) : (s.setByte a b).dt = s.dt := rfl
@[simp] theorem State.setByte_st (a : Nat) (b : Byte) : (s.setByte a b).st = s.st := rfl
@[simp] theorem State.setByte_fb (a : Nat) (b : Byte) : (s.setByte a b).fb = s.fb := rfl
@[simp] theorem State.setByte_keys (a : Nat) (b : Byte) : (s.setByte a b).keys = s.keys := rfl
@[simp] theorem State.setByte_mem (a : Nat) (b : Byte) : (s.setByte a b).mem = Memory.write s.params s.mem a b := rfl
@[simp] theorem State.setByte_status (a : Nat) (b : Byte) : (s.setByte a b).status = s.status := rfl
@[simp] theorem State.setByte_draws (a : Nat) (b : Byte) : (s.setByte a b).draws = s.draws := rfl
@[simp] theorem State.setByte_reg (a : Nat) (b : Byte) (r : Reg) : (s.setByte a b).reg r = s.reg r := rfl

/-! ### setReg -/

@[simp] theorem State.setReg_params (x : Reg) (b : Byte) : (s.setReg x b).params = s.params := rfl
@[simp] theorem State.setReg_v (x : Reg) (b : Byte) : (s.setReg x b).v = s.v.set x.val b := rfl
@[simp] theorem State.setReg_i (x : Reg) (b : Byte) : (s.setReg x b).i = s.i := rfl
@[simp] theorem State.setReg_pc (x : Reg) (b : Byte) : (s.setReg x b).pc = s.pc := rfl
@[simp] theorem State.setReg_sp (x : Reg) (b : Byte) : (s.setReg x b).sp = s.sp := rfl
@[simp] theorem State.setReg_stack (x : Reg) (b : Byte) : (s.setReg x b).stack = s.stack := rfl
@[simp] theorem State.setReg_dt (x : Reg) (b : Byte) : (s.setReg x b).dt = s.dt := rfl
@[simp] theorem State.setReg_st (x : Reg) (b : Byte) : (s.setReg x b).st = s.st := rfl
@[simp] theorem State.setReg_fb (x : Reg) (b : Byte) : (s.setReg x b).fb = s.fb := rfl
@[simp] theorem State.setReg_keys (x : Reg) (b : Byte) : (s.setReg x b).keys = s.keys := rfl
@[simp] theorem State.setReg_mem (x : Reg) (b : Byte) : (s.setReg x b).mem = s.mem := rfl
@[simp] theorem State.setReg_status (x : Reg) (b : Byte) : (s.setReg x b).status = s.status := rfl
@[simp] theorem State.setReg_draws (x : Reg) (b : Byte) : (s.setReg x b).draws = s.draws := rfl
@[simp] theorem State.setReg_byte (x : Reg) (b : Byte) (adr : Nat) : (s.setReg x b).byte adr = s.byte adr := rfl

/-! ### loadRegs -/

@[simp] theorem State.loadRegs_params (bytes : List Byte) : (s.loadRegs bytes).params = s.params := rfl
@[simp] theorem State.loadRegs_v (bytes : List Byte) : (s.loadRegs bytes).v = writeRegs s.v 0 bytes := rfl
@[simp] theorem State.loadRegs_i (bytes : List Byte) : (s.loadRegs bytes).i = s.i := rfl
@[simp] theorem State.loadRegs_pc (bytes : List Byte) : (s.loadRegs bytes).pc = s.pc := rfl
@[simp] theorem State.loadRegs_sp (bytes : List Byte) : (s.loadRegs bytes).sp = s.sp := rfl
@[simp] theorem State.loadRegs_stack (bytes : List Byte) : (s.loadRegs bytes).stack = s.stack := rfl
@[simp] theorem State.loadRegs_dt (bytes : List Byte) : (s.loadRegs bytes).dt = s.dt := rfl
@[simp] theorem State.loadRegs_st (bytes : List Byte) : (s.loadRegs bytes).st = s.st := rfl
@[simp] theorem State.loadRegs_fb (bytes : List Byte) : (s.loadRegs bytes).fb = s.fb := rfl
@[simp] theorem State.loadRegs_keys (bytes : List Byte) : (s.loadRegs bytes).keys = s.keys := rfl
@[simp] theorem State.loadRegs_mem (bytes : List Byte) : (s.loadRegs bytes).mem = s.mem := rfl
@[simp] theorem State.loadRegs_status (bytes : List Byte) : (s.loadRegs bytes).status = s.status := rfl
@[simp] theorem State.loadRegs_draws (bytes : List Byte) : (s.loadRegs bytes).draws = s.draws := rfl
@[simp] theorem State.loadRegs_byte (bytes : List Byte) (adr : Nat) : (s.loadRegs bytes).byte adr = s.byte adr := rfl

/-! ### setI -/

@[simp] theorem State.setI_params (w : Word) : (s.setI w).params = s.params := rfl
@[simp] theorem State.setI_v (w : Word) : (s.setI w).v = s.v := rfl
@[simp] theorem State.setI_i (w : Word) : (s.setI w).i = w := rfl
@[simp] theorem State.setI_pc (w : Word) : (s.setI w).pc = s.pc := rfl
@[simp] theorem State.setI_sp (w : Word) : (s.setI w).sp = s.sp := rfl
@[simp] theorem State.setI_stack (w : Word) : (s.setI w).stack = s.stack := rfl
@[simp] theorem State.setI_dt (w : Word) : (s.setI w).dt = s.dt := rfl
@[simp] theorem State.setI_st (w : Word) : (s.setI w).st = s.st := rfl
@[simp] theorem State.setI_fb (w : Word) : (s.setI w).fb = s.fb := rfl
@[simp] theorem State.setI_keys (w : Word) : (s.setI w).keys = s.keys := rfl
@[simp] theorem State.setI_mem (w : Word) : (s.setI w).mem = s.mem := rfl
@[simp] theorem State.setI_status (w : Word) : (s.setI w).status = s.status := rfl
@[simp] theorem State.setI_draws (w : Word) : (s.setI w).draws = s.draws := rfl
@[simp] theorem State.setI_reg (w : Word) (r : Reg) : (s.setI w).reg r = s.reg r := rfl
@[simp] theorem State.setI_byte (w : Word) (adr : Nat) : (s.setI w).byte adr = s.byte adr := rfl

/-! ### setDT -/

@[simp] theorem State.setDT_params (b : Byte) : (s.setDT b).params = s.params := rfl
@[simp] theorem State.setDT_v (b : Byte) : (s.setDT b).v = s.v := rfl
@[simp] theorem State.setDT_i (b : Byte) : (s.setDT b).i = s.i := rfl
@[simp] theorem State.setDT_pc (b : Byte) : (s.setDT b).pc = s.pc := rfl
@[simp] theorem State.setDT_sp (b : Byte) : (s.setDT b).sp = s.sp := rfl
@[simp] theorem State.setDT_stack (b : Byte) : (s.setDT b).stack = s.stack := rfl
@[simp] theorem State.setDT_dt (b : Byte) : (s.setDT b).dt = b := rfl
@[simp] theorem State.setDT_st (b : Byte) : (s.setDT b).st = s.st := rfl
@[simp] theorem State.setDT_fb (b : Byte) : (s.setDT b).fb = s.fb := rfl
@[simp] theorem State.setDT_keys (b : Byte) : (s.setDT b).keys = s.keys := rfl
@[simp] theorem State.setDT_mem (b : Byte) : (s.setDT b).mem = s.mem := rfl
@[simp] theorem State.setDT_status (b : Byte) : (s.setDT b).status = s.status := rfl
@[simp] theorem State.setDT_draws (b : Byte) : (s.setDT b).draws = s.draws := rfl
@[simp] theorem State.setDT_reg (b : Byte) (r : Reg) : (s.setDT b).reg r = s.reg r := rfl
@[simp] theorem State.setDT_byte (b : Byte) (adr : Nat) : (s.setDT b).byte adr = s.byte adr := rfl

/-! ### setST -/

@[simp] theorem State.setST_params (b : Byte) : (s.setST b).params = s.params := rfl
@[simp] theorem State.setST_v (b : Byte) : (s.setST b).v = s.v := rfl
@[simp] theorem State.setST_i (b : Byte) : (s.setST b).i = s.i := rfl
@[simp] theorem State.setST_pc (b : Byte) : (s.setST b).pc = s.pc := rfl
@[simp] theorem State.setST_sp (b : Byte) : (s.setST b).sp = s.sp := rfl
@[simp] theorem State.setST_stack (b : Byte) : (s.setST b).stack = s.stack := rfl
@[simp] theorem State.setST_dt (b : Byte) : (s.setST b).dt = s.dt := rfl
@[simp] theorem State.setST_st (b : Byte) : (s.setST b).st = b := rfl
@[simp] theorem State.setST_fb (b : Byte) : (s.setST b).fb = s.fb := rfl
@[simp] theorem State.setST_keys (b : Byte) : (s.setST b).keys = s.keys := rfl
@[simp] theorem State.setST_mem (b : Byte) : (s.setST b).mem = s.mem := rfl
@[simp] theorem State.setST_status (b : Byte) : (s.setST b).status = s.status := rfl
@[simp] theorem State.setST_draws (b : Byte) : (s.setST b).draws = s.draws := rfl
@[simp] theorem State.setST_reg (b : Byte) (r : Reg) : (s.setST b).reg r = s.reg r := rfl
@[simp] theorem State.setST_byte (b : Byte) (adr : Nat) : (s.setST b).byte adr = s.byte adr := rfl

/-! ### setFb -/

@[simp] theorem State.setFb_params (fb : Display) : (s.setFb fb).params = s.params := rfl
@[simp] theorem State.setFb_v (fb : Display) : (s.setFb fb).v = s.v := rfl
@[simp] theorem State.setFb_i (fb : Display) : (s.setFb fb).i = s.i := rfl
@[simp] theorem State.setFb_pc (fb : Display) : (s.setFb fb).pc = s.pc := rfl
@[simp] theorem State.setFb_sp (fb : Display) : (s.setFb fb).sp = s.sp := rfl
@[simp] theorem State.setFb_stack (fb : Display) : (s.setFb fb).stack = s.stack := rfl
@[simp] theorem State.setFb_dt (fb : Display) : (s.setFb fb).dt = s.dt := rfl
@[simp] theorem State.setFb_st (fb : Display) : (s.setFb fb).st = s.st := rfl
@[simp] theorem State.setFb_fb (fb : Display) : (s.setFb fb).fb = fb := rfl
@[simp] theorem State.setFb_keys (fb : Display) : (s.setFb fb).keys = s.keys := rfl
@[simp] theorem State.setFb_mem (fb : Display) : (s.setFb fb).mem = s.mem := rfl
@[simp] theorem State.setFb_status (fb : Display) : (s.setFb fb).status = s.status := rfl
@[simp] theorem State.setFb_draws (fb : Display) : (s.setFb fb).draws = s.draws := rfl
@[simp] theorem State.setFb_reg (fb : Display) (r : Reg) : (s.setFb fb).reg r = s.reg r := rfl
@[simp] theorem State.setFb_byte (fb : Display) (adr : Nat) : (s.setFb fb).byte adr = s.byte adr := rfl

/-! ### countDraw -/

@[simp] theorem State.countDraw_params : s.countDraw.params = s.params := rfl
@[simp] theorem State.countDraw_v : s.countDraw.v = s.v := rfl
@[simp] theorem State.countDraw_i : s.countDraw.i = s.i := rfl
@[simp] theorem State.countDraw_pc : s.countDraw.pc = s.pc := rfl
@[simp] theorem State.countDraw_sp : s.countDraw.sp = s.sp := rfl
@[simp] theorem State.countDraw_stack : s.countDraw.stack = s.stack := rfl
@[simp] theorem State.countDraw_dt : s.countDraw.dt = s.dt := rfl
@[simp] theorem State.countDraw_st : s.countDraw.st = s.st := rfl
@[simp] theorem State.countDraw_fb : s.countDraw.fb = s.fb := rfl
@[simp] theorem State.countDraw_keys : s.countDraw.keys = s.keys := rfl
@[simp] theorem State.countDraw_mem : s.countDraw.mem = s.mem := rfl
@[simp] theorem State.countDraw_status : s.countDraw.status = s.status := rfl
@[simp] theorem State.countDraw_draws : s.countDraw.draws = s.draws + 1 := rfl
@[simp] theorem State.countDraw_reg (r : Reg) : s.countDraw.reg r = s.reg r := rfl
@[simp] theorem State.countDraw_byte (adr : Nat) : s.countDraw.byte adr = s.byte adr := rfl

/-! ### jump -/

@[simp] theorem State.jump_params (a : Word) : (s.jump a).params = s.params := rfl
@[simp] theorem State.jump_v (a : Word) : (s.jump a).v = s.v := rfl
@[simp] theorem State.jump_i (a : Word) : (s.jump a).i = s.i := rfl
@[simp] theorem State.jump_pc (a : Word) : (s.jump a).pc = a := rfl
@[simp] theorem State.jump_sp (a : Word) : (s.jump a).sp = s.sp := rfl
@[simp] theorem State.jump_stack (a : Word) : (s.jump a).stack = s.stack := rfl
@[simp] theorem State.jump_dt (a : Word) : (s.jump a).dt = s.dt := rfl
@[simp] theorem State.jump_st (a : Word) : (s.jump a).st = s.st := rfl
@[simp] theorem State.jump_fb (a : Word) : (s.jump a).fb = s.fb := rfl
@[simp] theorem State.jump_keys (a : Word) : (s.jump a).keys = s.keys := rfl
@[simp] theorem State.jump_mem (a : Word) : (s.jump a).mem = s.mem := rfl
@[simp] theorem State.jump_status (a : Word) : (s.jump a).status = s.status := rfl
@[simp] theorem State.jump_draws (a : Word) : (s.jump a).draws = s.draws := rfl
@[simp] theorem State.jump_reg (a : Word) (r : Reg) : (s.jump a).reg r = s.reg r := rfl
@[simp] theorem State.jump_byte (a : Word) (adr : Nat) : (s.jump a).byte adr = s.byte adr := rfl

/-! ### advance -/

@[simp] theorem State.advance_params : s.advance.params = s.params := rfl
@[simp] theorem State.advance_v : s.advance.v = s.v := rfl
@[simp] theorem State.advance_i : s.advance.i = s.i := rfl
@[simp] theorem State.advance_pc : s.advance.pc = s.pc + 2 := rfl
@[simp] theorem State.advance_sp : s.advance.sp = s.sp := rfl
@[simp] theorem State.advance_stack : s.advance.stack = s.stack := rfl
@[simp] theorem State.advance_dt : s.advance.dt = s.dt := rfl
@[simp] theorem State.advance_st : s.advance.st = s.st := rfl
@[simp] theorem State.advance_fb : s.advance.fb = s.fb := rfl
@[simp] theorem State.advance_keys : s.advance.keys = s.keys := rfl
@[simp] theorem State.advance_mem : s.advance.mem = s.mem := rfl
@[simp] theorem State.advance_status : s.advance.status = s.status := rfl
@[simp] theorem State.advance_draws : s.advance.draws = s.draws := rfl
@[simp] theorem State.advance_reg (r : Reg) : s.advance.reg r = s.reg r := rfl
@[simp] theorem State.advance_byte (adr : Nat) : s.advance.byte adr = s.byte adr := rfl

/-! ### refetch -/

@[simp] theorem State.refetch_params : s.refetch.params = s.params := rfl
@[simp] theorem State.refetch_v : s.refetch.v = s.v := rfl
@[simp] theorem State.refetch_i : s.refetch.i = s.i := rfl
@[simp] theorem State.refetch_pc : s.refetch.pc = s.pc - 2 := rfl
@[simp] theorem State.refetch_sp : s.refetch.sp = s.sp := rfl
@[simp] theorem State.refetch_stack : s.refetch.stack = s.stack := rfl
@[simp] theorem State.refetch_dt : s.refetch.dt = s.dt := rfl
@[simp] theorem State.refetch_st : s.refetch.st = s.st := rfl
@[simp] theorem State.refetch_fb : s.refetch.fb = s.fb := rfl
@[simp] theorem State.refetch_keys : s.refetch.keys = s.keys := rfl
@[simp] theorem State.refetch_mem : s.refetch.mem = s.mem := rfl
@[simp] theorem State.refetch_status : s.refetch.status = s.status := rfl
@[simp] theorem State.refetch_draws : s.refetch.draws = s.draws := rfl
@[simp] theorem State.refetch_reg (r : Reg) : s.refetch.reg r = s.reg r := rfl
@[simp] theorem State.refetch_byte (adr : Nat) : s.refetch.byte adr = s.byte adr := rfl

/-! ### raise -/

@[simp] theorem State.raise_params (c : Cause) : (s.raise c).params = s.params := rfl
@[simp] theorem State.raise_v (c : Cause) : (s.raise c).v = s.v := rfl
@[simp] theorem State.raise_i (c : Cause) : (s.raise c).i = s.i := rfl
@[simp] theorem State.raise_pc (c : Cause) : (s.raise c).pc = s.pc := rfl
@[simp] theorem State.raise_sp (c : Cause) : (s.raise c).sp = s.sp := rfl
@[simp] theorem State.raise_stack (c : Cause) : (s.raise c).stack = s.stack := rfl
@[simp] theorem State.raise_dt (c : Cause) : (s.raise c).dt = s.dt := rfl
@[simp] theorem State.raise_st (c : Cause) : (s.raise c).st = s.st := rfl
@[simp] theorem State.raise_fb (c : Cause) : (s.raise c).fb = s.fb := rfl
@[simp] theorem State.raise_keys (c : Cause) : (s.raise c).keys = s.keys := rfl
@[simp] theorem State.raise_mem (c : Cause) : (s.raise c).mem = s.mem := rfl
@[simp] theorem State.raise_status (c : Cause) : (s.raise c).status = .faulted c := rfl
@[simp] theorem State.raise_draws (c : Cause) : (s.raise c).draws = s.draws := rfl
@[simp] theorem State.raise_reg (c : Cause) (r : Reg) : (s.raise c).reg r = s.reg r := rfl
@[simp] theorem State.raise_byte (c : Cause) (adr : Nat) : (s.raise c).byte adr = s.byte adr := rfl

/-! ### setFlag -/

@[simp] theorem State.setFlag_params (c : Bool) : (s.setFlag c).params = s.params := rfl
@[simp] theorem State.setFlag_v (c : Bool) : (s.setFlag c).v = s.v.set vf.val (flagByte c) := rfl
@[simp] theorem State.setFlag_i (c : Bool) : (s.setFlag c).i = s.i := rfl
@[simp] theorem State.setFlag_pc (c : Bool) : (s.setFlag c).pc = s.pc := rfl
@[simp] theorem State.setFlag_sp (c : Bool) : (s.setFlag c).sp = s.sp := rfl
@[simp] theorem State.setFlag_stack (c : Bool) : (s.setFlag c).stack = s.stack := rfl
@[simp] theorem State.setFlag_dt (c : Bool) : (s.setFlag c).dt = s.dt := rfl
@[simp] theorem State.setFlag_st (c : Bool) : (s.setFlag c).st = s.st := rfl
@[simp] theorem State.setFlag_fb (c : Bool) : (s.setFlag c).fb = s.fb := rfl
@[simp] theorem State.setFlag_keys (c : Bool) : (s.setFlag c).keys = s.keys := rfl
@[simp] theorem State.setFlag_mem (c : Bool) : (s.setFlag c).mem = s.mem := rfl
@[simp] theorem State.setFlag_status (c : Bool) : (s.setFlag c).status = s.status := rfl
@[simp] theorem State.setFlag_draws (c : Bool) : (s.setFlag c).draws = s.draws := rfl
@[simp] theorem State.setFlag_byte (c : Bool) (adr : Nat) : (s.setFlag c).byte adr = s.byte adr := rfl

/-! ### maskInto -/

@[simp] theorem State.maskInto_params (r : Byte) (x : Reg) (kk : Byte) : (s.maskInto r x kk).params = s.params := rfl
@[simp] theorem State.maskInto_v (r : Byte) (x : Reg) (kk : Byte) : (s.maskInto r x kk).v = s.v.set x.val (r &&& kk) := rfl
@[simp] theorem State.maskInto_i (r : Byte) (x : Reg) (kk : Byte) : (s.maskInto r x kk).i = s.i := rfl
@[simp] theorem State.maskInto_pc (r : Byte) (x : Reg) (kk : Byte) : (s.maskInto r x kk).pc = s.pc := rfl
@[simp] theorem State.maskInto_sp (r : Byte) (x : Reg) (kk : Byte) : (s.maskInto r x kk).sp = s.sp := rfl
@[simp] theorem State.maskInto_stack (r : Byte) (x : Reg) (kk : Byte) : (s.maskInto r x kk).stack = s.stack := rfl
@[simp] theorem State.maskInto_dt (r : Byte) (x : Reg) (kk : Byte) : (s.maskInto r x kk).dt = s.dt := rfl
@[simp] theorem State.maskInto_st (r : Byte) (x : Reg) (kk : Byte) : (s.maskInto r x kk).st = s.st := rfl
@[simp] theorem State.maskInto_fb (r : Byte) (x : Reg) (kk : Byte) : (s.maskInto r x kk).fb = s.fb := rfl
@[simp] theorem State.maskInto_keys (r : Byte) (x : Reg) (kk : Byte) : (s.maskInto r x kk).keys = s.keys := rfl
@[simp] theorem State.maskInto_mem (r : Byte) (x : Reg) (kk : Byte) : (s.maskInto r x kk).mem = s.mem := rfl
@[simp] theorem State.maskInto_status (r : Byte) (x : Reg) (kk : Byte) : (s.maskInto r x kk).status = s.status := rfl
@[simp] theorem State.maskInto_draws (r : Byte) (x : Reg) (kk : Byte) : (s.maskInto r x kk).draws = s.draws := rfl
@[simp] theorem State.maskInto_byte (r : Byte) (x : Reg) (kk : Byte) (adr : Nat) : (s.maskInto r x kk).byte adr = s.byte adr := rfl

/-! ### finishBlit -/

@[simp] theorem State.finishBlit_params (b : Blit) : (s.finishBlit b).params = s.params := rfl
@[simp] theorem State.finishBlit_v (b : Blit) : (s.finishBlit b).v = s.v.set vf.val (flagByte b.collided) := rfl
@[simp] theorem State.finishBlit_i (b : Blit) : (s.finishBlit b).i = s.i := rfl
@[simp] theorem State.finishBlit_pc (b : Blit) : (s.finishBlit b).pc = s.pc := rfl
@[simp] theorem State.finishBlit_sp (b : Blit) : (s.finishBlit b).sp = s.sp := rfl
@[simp] theorem State.finishBlit_stack (b : Blit) : (s.finishBlit b).stack = s.stack := rfl
@[simp] theorem State.finishBlit_dt (b : Blit) : (s.finishBlit b).dt = s.dt := rfl
@[simp] theorem State.finishBlit_st (b : Blit) : (s.finishBlit b).st = s.st := rfl
@[simp] theorem State.finishBlit_fb (b : Blit) : (s.finishBlit b).fb = b.fb := rfl
@[simp] theorem State.finishBlit_keys (b : Blit) : (s.finishBlit b).keys = s.keys := rfl
@[simp] theorem State.finishBlit_mem (b : Blit) : (s.finishBlit b).mem = s.mem := rfl
@[simp] theorem State.finishBlit_status (b : Blit) : (s.finishBlit b).status = s.status := rfl
@[simp] theorem State.finishBlit_draws (b : Blit) : (s.finishBlit b).draws = s.draws := rfl
@[simp] theorem State.finishBlit_byte (b : Blit) (adr : Nat) : (s.finishBlit b).byte adr = s.byte adr := rfl

/-! ### skipIf -/

@[simp] theorem State.skipIf_params (c : Bool) : (s.skipIf c).params = s.params := by cases c <;> rfl
@[simp] theorem State.skipIf_v (c : Bool) : (s.skipIf c).v = s.v := by cases c <;> rfl
@[simp] theorem State.skipIf_i (c : Bool) : (s.skipIf c).i = s.i := by cases c <;> rfl
@[simp] theorem State.skipIf_pc (c : Bool) : (s.skipIf c).pc = if c then s.pc + 2 else s.pc := by
  cases c <;> rfl
@[simp] theorem State.skipIf_sp (c : Bool) : (s.skipIf c).sp = s.sp := by cases c <;> rfl
@[simp] theorem State.skipIf_stack (c : Bool) : (s.skipIf c).stack = s.stack := by cases c <;> rfl
@[simp] theorem State.skipIf_dt (c : Bool) : (s.skipIf c).dt = s.dt := by cases c <;> rfl
@[simp] theorem State.skipIf_st (c : Bool) : (s.skipIf c).st = s.st := by cases c <;> rfl
@[simp] theorem State.skipIf_fb (c : Bool) : (s.skipIf c).fb = s.fb := by cases c <;> rfl
@[simp] theorem State.skipIf_keys (c : Bool) : (s.skipIf c).keys = s.keys := by cases c <;> rfl
@[simp] theorem State.skipIf_mem (c : Bool) : (s.skipIf c).mem = s.mem := by cases c <;> rfl
@[simp] theorem State.skipIf_status (c : Bool) : (s.skipIf c).status = s.status := by cases c <;> rfl
@[simp] theorem State.skipIf_draws (c : Bool) : (s.skipIf c).draws = s.draws := by cases c <;> rfl
@[simp] theorem State.skipIf_reg (c : Bool) (r : Reg) : (s.skipIf c).reg r = s.reg r := by cases c <;> rfl
@[simp] theorem State.skipIf_byte (c : Bool) (adr : Nat) : (s.skipIf c).byte adr = s.byte adr := by cases c <;> rfl

/-! ### writeFlagThenResult -/

@[simp] theorem State.writeFlagThenResult_params (fl : Option Bool) (x : Reg) (r : Byte) :
    (s.writeFlagThenResult fl x r).params = s.params := by cases fl <;> rfl
@[simp] theorem State.writeFlagThenResult_i (fl : Option Bool) (x : Reg) (r : Byte) :
    (s.writeFlagThenResult fl x r).i = s.i := by cases fl <;> rfl
@[simp] theorem State.writeFlagThenResult_pc (fl : Option Bool) (x : Reg) (r : Byte) :
    (s.writeFlagThenResult fl x r).pc = s.pc := by cases fl <;> rfl
@[simp] theorem State.writeFlagThenResult_sp (fl : Option Bool) (x : Reg) (r : Byte) :
    (s.writeFlagThenResult fl x r).sp = s.sp := by cases fl <;> rfl
@[simp] theorem State.writeFlagThenResult_stack (fl : Option Bool) (x : Reg) (r : Byte) :
    (s.writeFlagThenResult fl x r).stack = s.stack := by cases fl <;> rfl
@[simp] theorem State.writeFlagThenResult_dt (fl : Option Bool) (x : Reg) (r : Byte) :
    (s.writeFlagThenResult fl x r).dt = s.dt := by cases fl <;> rfl
@[simp] theorem State.writeFlagThenResult_st (fl : Option Bool) (x : Reg) (r : Byte) :
    (s.writeFlagThenResult fl x r).st = s.st := by cases fl <;> rfl
@[simp] theorem State.writeFlagThenResult_fb (fl : Option Bool) (x : Reg) (r : Byte) :
    (s.writeFlagThenResult fl x r).fb = s.fb := by cases fl <;> rfl
@[simp] theorem State.writeFlagThenResult_keys (fl : Option Bool) (x : Reg) (r : Byte) :
    (s.writeFlagThenResult fl x r).keys = s.keys := by cases fl <;> rfl
@[simp] theorem State.writeFlagThenResult_mem (fl : Option Bool) (x : Reg) (r : Byte) :
    (s.writeFlagThenResult fl x r).mem = s.mem := by cases fl <;> rfl
@[simp] theorem State.writeFlagThenResult_status (fl : Option Bool) (x : Reg) (r : Byte) :
    (s.writeFlagThenResult fl x r).status = s.status := by cases fl <;> rfl
@[simp] theorem State.writeFlagThenResult_draws (fl : Option Bool) (x : Reg) (r : Byte) :
    (s.writeFlagThenResult fl x r).draws = s.draws := by cases fl <;> rfl
@[simp] theorem State.writeFlagThenResult_byte (fl : Option Bool) (x : Reg) (r : Byte) (adr : Nat) :
    (s.writeFlagThenResult fl x r).byte adr = s.byte adr := by cases fl <;> rfl

/-! ### Registers read back -/

theorem State.reg_setReg (x r : Reg) (b : Byte) : (s.setReg x b).reg r = if r = x then b else s.reg r := by
  simp [State.reg, State.setReg, Vector.getElem_set, Fin.ext_iff, eq_comm]

@[simp] theorem State.reg_setReg_same (x : Reg) (b : Byte) : (s.setReg x b).reg x = b := by
  simp [State.reg_setReg]

@[simp] theorem State.reg_setReg_other {x r : Reg} (b : Byte) (h : r ≠ x) : (s.setReg x b).reg r = s.reg r := by
  simp [State.reg_setReg, h]

@[simp] theorem State.reg_setFlag (c : Bool) (r : Reg) :
    (s.setFlag c).reg r = if r = vf then flagByte c else s.reg r := State.reg_setReg s vf r _

@[simp] theorem State.reg_maskInto (b : Byte) (x r : Reg) (kk : Byte) :
    (s.maskInto b x kk).reg r = if r = x then b &&& kk else s.reg r := State.reg_setReg s x r _

@[simp] theorem State.reg_finishBlit (b : Blit) (r : Reg) :
    (s.finishBlit b).reg r = if r = vf then flagByte b.collided else s.reg r := State.reg_setReg (s.setFb b.fb) vf r _

/-- The write order of R150, read back: the result wins over the flag, the flag over the old value. -/
theorem State.reg_writeFlagThenResult (fl : Option Bool) (x r : Reg) (b : Byte) :
    (s.writeFlagThenResult fl x b).reg r =
      if r = x then b else if r = vf then (fl.map flagByte).getD (s.reg vf) else s.reg r := by
  cases fl
  all_goals simp only [State.writeFlagThenResult, State.setFlag, State.reg_setReg, Option.map, Option.getD]
  all_goals split_ifs <;> simp_all

end Sys2Proof.Machine
end

