-- ==== Sys2Proof/Laws/Memory.lean ====
section
/-!
SUPPORT. Laws/Memory.lean: reading what was written (20_memory.md R62, R70), and that every memory operation keeps the
canonical form.
-/

namespace Sys2Proof.Machine

theorem Memory.lookup_insert (m : Memory) (a : Nat) (b : Byte) (r : Nat) :
    Memory.lookup (Memory.insert m a b) r = if r = a then some b else Memory.lookup m r := by
  induction m with
  | nil => simp [Memory.insert, Memory.lookup, eq_comm]
  | cons c rest ih =>
    obtain ⟨k, v⟩ := c
    by_cases h1 : a < k
    · simp [Memory.insert, Memory.lookup, h1, eq_comm]
    · by_cases h2 : a = k
      · subst h2
        simp only [Memory.insert, Memory.lookup, lt_irrefl, if_false, if_true, eq_comm]
        split_ifs <;> rfl
      · have h3 : ¬(k = r ∧ r = a) := fun h => h2 (h.1.trans h.2).symm
        simp only [Memory.insert, Memory.lookup, h1, h2, if_false, ih]
        by_cases hk : k = r <;> by_cases hr : r = a <;> simp_all

theorem Memory.lookup_erase (m : Memory) (a r : Nat) :
    Memory.lookup (m.filter fun c => c.1 ≠ a) r = if r = a then none else Memory.lookup m r := by
  induction m with
  | nil => simp [Memory.lookup]
  | cons c rest ih =>
    obtain ⟨k, v⟩ := c
    by_cases hk : k = a
    · by_cases hr : r = a
      · simp_all
      · have : k ≠ r := fun h => hr (h.symm.trans hk)
        simp_all [Memory.lookup]
    · by_cases hr : r = a
      · have : k ≠ r := fun h => hk (h.trans hr)
        simp_all [Memory.lookup]
      · simp_all [Memory.lookup]

/-- A read after a write gives the byte written, and a write leaves every other address alone. -/
theorem Memory.read_write (p : Params) (m : Memory) (a : Nat) (b : Byte) (r : Nat) :
    Memory.read p (Memory.write p m a b) r = if r = a then b else Memory.read p m r := by
  by_cases h : b = Memory.background p a
  · rw [Memory.write, if_pos h, Memory.read, Memory.lookup_erase]
    by_cases hr : r = a <;> simp [hr, h, Memory.read]
  · rw [Memory.write, if_neg h, Memory.read, Memory.lookup_insert]
    by_cases hr : r = a <;> simp [hr, Memory.read]

theorem Memory.mem_insert {m : Memory} {a : Nat} {b : Byte} {c : Host.Cell} (h : c ∈ Memory.insert m a b) :
    c = (a, b) ∨ c ∈ m := by
  induction m with
  | nil => simpa [Memory.insert] using h
  | cons d rest ih =>
    obtain ⟨k, v⟩ := d
    simp only [Memory.insert] at h
    split_ifs at h <;> simp only [List.mem_cons] at h ⊢ <;> grind

theorem Memory.insert_pairwise {m : Memory} (a : Nat) (b : Byte) (h : m.Pairwise fun c d => c.1 < d.1) :
    (Memory.insert m a b).Pairwise fun c d => c.1 < d.1 := by
  induction m with
  | nil => simp [Memory.insert]
  | cons d rest ih =>
    obtain ⟨k, v⟩ := d
    rw [List.pairwise_cons] at h
    obtain ⟨hk, hrest⟩ := h
    simp only [Memory.insert]
    split_ifs with h1 h2
    · refine List.pairwise_cons.2 ⟨fun c hc => ?_, List.pairwise_cons.2 ⟨hk, hrest⟩⟩
      rcases List.mem_cons.1 hc with rfl | hc
      · exact h1
      · exact Nat.lt_trans h1 (hk c hc)
    · exact List.pairwise_cons.2 ⟨fun c hc => (h2 ▸ hk c hc : a < c.1), hrest⟩
    · refine List.pairwise_cons.2 ⟨fun c hc => ?_, ih hrest⟩
      rcases Memory.mem_insert hc with rfl | hc
      · exact (by omega : k < a)
      · exact hk c hc

theorem Memory.wf_nil (p : Params) : Memory.wf p [] := ⟨List.Pairwise.nil, nofun⟩

/-- Every write inside memory keeps the canonical form. -/
theorem Memory.wf_write {p : Params} {m : Memory} {a : Nat} (b : Byte) (hm : Memory.wf p m) (ha : a < p.memSize) :
    Memory.wf p (Memory.write p m a b) := by
  unfold Memory.write
  split_ifs with h
  · exact ⟨hm.1.filter _, fun c hc => hm.2 c (List.mem_of_mem_filter hc)⟩
  · refine ⟨Memory.insert_pairwise a b hm.1, fun c hc => ?_⟩
    rcases Memory.mem_insert hc with rfl | hc
    · exact ⟨ha, h⟩
    · exact hm.2 c hc

/-! ### Memory of a state -/

@[simp] theorem State.byte_setByte (s : State) (a : Nat) (b : Byte) (r : Nat) :
    (s.setByte a b).byte r = if r = a then b else s.byte r := Memory.read_write _ _ _ _ _

/-- Writing bytes changes memory only. -/
theorem State.writeBytes_eq (s : State) (base : Nat) (bytes : List Byte) :
    s.writeBytes base bytes = { s with mem := (s.writeBytes base bytes).mem } := by
  induction bytes generalizing s base with
  | nil => rfl
  | cons b bs ih => simp only [State.writeBytes]; rw [ih]; rfl

/-! Writing bytes leaves every other field. -/

@[simp] theorem State.writeBytes_params (s : State) (base : Nat) (bytes : List Byte) :
    (s.writeBytes base bytes).params = s.params := by rw [State.writeBytes_eq]
@[simp] theorem State.writeBytes_v (s : State) (base : Nat) (bytes : List Byte) :
    (s.writeBytes base bytes).v = s.v := by rw [State.writeBytes_eq]
@[simp] theorem State.writeBytes_i (s : State) (base : Nat) (bytes : List Byte) :
    (s.writeBytes base bytes).i = s.i := by rw [State.writeBytes_eq]
@[simp] theorem State.writeBytes_pc (s : State) (base : Nat) (bytes : List Byte) :
    (s.writeBytes base bytes).pc = s.pc := by rw [State.writeBytes_eq]
@[simp] theorem State.writeBytes_sp (s : State) (base : Nat) (bytes : List Byte) :
    (s.writeBytes base bytes).sp = s.sp := by rw [State.writeBytes_eq]
@[simp] theorem State.writeBytes_stack (s : State) (base : Nat) (bytes : List Byte) :
    (s.writeBytes base bytes).stack = s.stack := by rw [State.writeBytes_eq]
@[simp] theorem State.writeBytes_dt (s : State) (base : Nat) (bytes : List Byte) :
    (s.writeBytes base bytes).dt = s.dt := by rw [State.writeBytes_eq]
@[simp] theorem State.writeBytes_st (s : State) (base : Nat) (bytes : List Byte) :
    (s.writeBytes base bytes).st = s.st := by rw [State.writeBytes_eq]
@[simp] theorem State.writeBytes_fb (s : State) (base : Nat) (bytes : List Byte) :
    (s.writeBytes base bytes).fb = s.fb := by rw [State.writeBytes_eq]
@[simp] theorem State.writeBytes_keys (s : State) (base : Nat) (bytes : List Byte) :
    (s.writeBytes base bytes).keys = s.keys := by rw [State.writeBytes_eq]
@[simp] theorem State.writeBytes_status (s : State) (base : Nat) (bytes : List Byte) :
    (s.writeBytes base bytes).status = s.status := by rw [State.writeBytes_eq]
@[simp] theorem State.writeBytes_draws (s : State) (base : Nat) (bytes : List Byte) :
    (s.writeBytes base bytes).draws = s.draws := by rw [State.writeBytes_eq]
@[simp] theorem State.writeBytes_reg (s : State) (base : Nat) (bytes : List Byte) (r : Reg) :
    (s.writeBytes base bytes).reg r = s.reg r := by rw [State.writeBytes_eq]; rfl

/-- What an address reads as after bytes are written from `base` on. -/
theorem State.byte_writeBytes (s : State) (base : Nat) (bytes : List Byte) (a : Nat) :
    (s.writeBytes base bytes).byte a =
      if base ≤ a ∧ a < base + bytes.length then bytes.getD (a - base) 0 else s.byte a := by
  induction bytes generalizing s base with
  | nil => simp [State.writeBytes]
  | cons b bs ih =>
    simp only [State.writeBytes, ih, State.byte_setByte, List.length_cons]
    by_cases h0 : a = base
    · subst h0; simp
    · by_cases h1 : base + 1 ≤ a ∧ a < base + 1 + bs.length
      · have e : a - base = (a - (base + 1)) + 1 := by omega
        have h2 : base ≤ a ∧ a < base + (bs.length + 1) := by omega
        rw [if_pos h1, if_pos h2, e, List.getD_cons_succ]
      · have h2 : ¬(base ≤ a ∧ a < base + (bs.length + 1)) := by omega
        rw [if_neg h1, if_neg h2, if_neg h0]

theorem State.wf_writeBytes {s : State} {base : Nat} {bytes : List Byte} (hm : Memory.wf s.params s.mem)
    (hb : base + bytes.length ≤ s.params.memSize) : Memory.wf s.params (s.writeBytes base bytes).mem := by
  induction bytes generalizing s base with
  | nil => exact hm
  | cons b bs ih =>
    simp only [List.length_cons] at hb
    have h1 : base < s.params.memSize := by omega
    have h2 : base + 1 + bs.length ≤ s.params.memSize := by omega
    exact ih (s := s.setByte base b) (Memory.wf_write b hm h1) h2

/-! ### The address decoder -/

/-- The check passes exactly when the whole range is inside memory; otherwise it gives the lowest offending address. -/
theorem State.checkRange_eq (s : State) (base n : Nat) :
    s.checkRange base n =
      if n = 0 ∨ base + n ≤ s.params.memSize then .ok () else .error (.memoryOutOfBounds (max base s.params.memSize)) := by
  unfold State.checkRange
  split
  · rename_i k hk
    obtain ⟨hle, hlt, hmin⟩ : s.params.memSize ≤ base + k ∧ k < n ∧ ∀ j < k, ¬ s.params.memSize ≤ base + j := by
      rw [List.find?_range_eq_some] at hk
      simpa [and_assoc] using hk
    have hno : ¬(n = 0 ∨ base + n ≤ s.params.memSize) := by omega
    rw [if_neg hno]
    congr 2
    by_cases h0 : k = 0
    · omega
    · have := hmin (k - 1) (by omega); omega
  · rename_i hk
    rw [List.find?_range_eq_none] at hk
    have hyes : n = 0 ∨ base + n ≤ s.params.memSize := by
      by_cases h0 : n = 0
      · exact .inl h0
      · have := hk (n - 1) (by omega); simp at this; omega
    rw [if_pos hyes]

theorem State.loadBytes_eq (s : State) (base n : Nat) :
    s.loadBytes base n =
      if n = 0 ∨ base + n ≤ s.params.memSize then .ok ((List.range n).map fun k => s.byte (base + k))
      else .error (.memoryOutOfBounds (max base s.params.memSize)) := by
  unfold State.loadBytes; rw [State.checkRange_eq]; split_ifs <;> rfl

theorem State.storeBytes_eq (s : State) (base : Nat) (bytes : List Byte) :
    s.storeBytes base bytes =
      if bytes.length = 0 ∨ base + bytes.length ≤ s.params.memSize then .ok (s.writeBytes base bytes)
      else .error (.memoryOutOfBounds (max base s.params.memSize)) := by
  unfold State.storeBytes; rw [State.checkRange_eq]; split_ifs <;> rfl

/-- The fetch (R63): both bytes in range, or the lowest address that is not. -/
theorem State.fetch_eq (s : State) :
    s.fetch =
      if s.pc.toNat + 1 < s.params.memSize then .ok (wordOfBytes (s.byte s.pc.toNat) (s.byte (s.pc.toNat + 1)))
      else .error (.memoryOutOfBounds (max s.pc.toNat s.params.memSize)) := by
  unfold State.fetch State.memRead2 State.memRead1
  by_cases h : s.params.memSize ≤ s.pc.toNat
  · have h1 : ¬(s.pc.toNat + 1 < s.params.memSize) := by omega
    have h2 : s.params.memSize ≤ s.pc.toNat + 1 := by omega
    simp [h, h1, h2]
  · by_cases h' : s.params.memSize ≤ s.pc.toNat + 1
    · have h1 : ¬(s.pc.toNat + 1 < s.params.memSize) := by omega
      have h2 : max s.pc.toNat s.params.memSize = s.pc.toNat + 1 := by omega
      simp [h, h', h1, h2]
    · have h1 : s.pc.toNat + 1 < s.params.memSize := by omega
      simp [h, h', h1]

end Sys2Proof.Machine
end

