-- ==== Sys2Proof/Laws/Ops.lean ====
section
/-!
SUPPORT. Laws/Ops.lean: one lemma per shared operation that says everything it can do.
-/

namespace Sys2Proof.Machine

/-! ### Taking a fault -/

@[simp] theorem State.commit_ok (s t : State) : s.commit (.ok t) = .next t := rfl

@[simp] theorem State.commit_error (s : State) (c : Cause) : s.commit (.error c) = .next (s.raise c) := rfl

/-- `commit` always answers a next state: the operation's own, or the state it began in with the fault latched (R240). -/
theorem State.commit_next {s : State} {r : Except Cause State} {t : State} (h : s.commit r = .next t) :
    r = .ok t ∨ ∃ c, r = .error c ∧ t = s.raise c := by
  cases r with
  | ok u => exact .inl (by cases h; rfl)
  | error c => exact .inr ⟨c, rfl, by cases h; rfl⟩

/-! ### Parameters -/

/-- The constraints of R4, as numbers. -/
theorem Params.bounds {p : Params} (h : p.wellFormed = true) :
    p.memSize ≤ 4096 ∧ p.loadOffset ≤ p.memSize ∧ 80 ≤ p.loadOffset ∧ 1 ≤ p.stackDepth ∧ p.stackDepth ≤ 255 ∧
      1 ≤ p.displayW ∧ 1 ≤ p.displayH ∧ (p.shlFlagBit = 0 ∨ p.shlFlagBit = 7) ∧ p.glyphTable.length = 80 := by
  simp [Params.wellFormed, Config.glyphBase, Config.glyphCount, Config.glyphBytes] at h
  omega

/-! ### The stack -/

theorem State.push_full {s : State} (a : Word) (h : s.sp.toNat = s.params.stackDepth) :
    s.push a = .error (.stackOverflow a) := by simp [State.push, h]

theorem State.push_room {s : State} (a : Word) (h : s.sp.toNat ≠ s.params.stackDepth) :
    s.push a = .ok { s with stack := s.stack.set s.sp.toNat a, sp := s.sp + 1 } := by simp [State.push, h]

theorem State.pop_empty {s : State} (h : s.sp = 0) : s.pop = .error .stackUnderflow := if_pos h

theorem State.pop_held {s : State} (h : s.sp ≠ 0) :
    s.pop = .ok (s.stack.getD (s.sp - 1).toNat 0, { s with sp := s.sp - 1 }) := if_neg h

theorem Byte.toNat_pred {b : Byte} (h : b ≠ 0) : (b - 1).toNat = b.toNat - 1 := by
  have : b.toNat ≠ 0 := fun h0 => h (BitVec.eq_of_toNat_eq h0)
  have := b.isLt
  rw [BitVec.toNat_sub]; simp; omega

theorem Byte.toNat_succ {b : Byte} (h : b.toNat < 255) : (b + 1).toNat = b.toNat + 1 := by
  rw [BitVec.toNat_add]; simp; omega

/-! ### Blocks of registers -/

theorem State.regsUpTo_length (s : State) (x : Reg) : (s.regsUpTo x).length = x.val + 1 := by
  simp [State.regsUpTo]

theorem State.regsUpTo_getD (s : State) (x r : Reg) (h : r.val ≤ x.val) : (s.regsUpTo x).getD r.val 0 = s.reg r := by
  have h1 : r.val < x.val + 1 := by omega
  simp [State.regsUpTo, State.reg, List.getD_eq_getElem?_getD, h1]

theorem writeRegs_getElem (v : Vector Byte 16) (k : Nat) (bytes : List Byte) (r : Nat) (hr : r < 16) :
    (writeRegs v k bytes)[r] = if k ≤ r ∧ r < k + bytes.length then bytes.getD (r - k) 0 else v[r] := by
  induction bytes generalizing v k with
  | nil => simp [writeRegs]
  | cons b bs ih =>
    simp only [writeRegs, ih, List.length_cons]
    by_cases h0 : r = k
    · subst h0; simp
    · by_cases h1 : k + 1 ≤ r ∧ r < k + 1 + bs.length
      · have e : r - k = (r - (k + 1)) + 1 := by omega
        have h2 : k ≤ r ∧ r < k + (bs.length + 1) := by omega
        rw [if_pos h1, if_pos h2, e, List.getD_cons_succ]
      · have h2 : ¬(k ≤ r ∧ r < k + (bs.length + 1)) := by omega
        rw [if_neg h1, if_neg h2, Vector.getElem_setIfInBounds]
        exact if_neg (Ne.symm h0)

/-- A block load writes as many registers as there are bytes, from `V[0]` on, and no other. -/
theorem State.reg_loadRegs (s : State) (bytes : List Byte) (r : Reg) :
    (s.loadRegs bytes).reg r = if r.val < bytes.length then bytes.getD r.val 0 else s.reg r := by
  have := writeRegs_getElem s.v 0 bytes r.val r.isLt
  simpa [State.reg, State.loadRegs] using this

/-! ### Operands -/

theorem addrWord_toNat (nnn : Addr) : (addrWord nnn).toNat = nnn.toNat := by
  have := nnn.isLt
  simp [addrWord]; omega

theorem byteWord_toNat (b : Byte) : (byteWord b).toNat = b.toNat := by
  have := b.isLt
  simp [byteWord]; omega

theorem glyphAddress_toNat (b : Byte) : (glyphAddress b).toNat = b.toNat % 16 * 5 := by
  have h : (b &&& 0x0F).toNat = b.toNat % 16 := by
    rw [BitVec.toNat_and]; exact Nat.and_two_pow_sub_one_eq_mod b.toNat 4
  have := Nat.mod_lt b.toNat (show 16 > 0 by decide)
  simp only [glyphAddress, h, Config.glyphBase, Config.glyphBytes, BitVec.toNat_ofNat]; omega

theorem wordOfBytes_toNat (hi lo : Byte) : (wordOfBytes hi lo).toNat = hi.toNat * 256 + lo.toNat := by
  have := lo.isLt
  rw [wordOfBytes, BitVec.toNat_append, ← Nat.shiftLeft_add_eq_or_of_lt this, Nat.shiftLeft_eq]

/-! ### Keys -/

theorem State.isDown_inRange (s : State) {k : Byte} (h : k.toNat < 16) : s.isDown k = .ok s.keys[k.toNat] := by
  simp [State.isDown, h]

theorem State.isDown_outOfRange (s : State) {k : Byte} (h : 15 < k.toNat) :
    s.isDown k = .error (.keyIndexOutOfRange k.toNat) := by
  simp [State.isDown, show ¬ k.toNat < 16 by omega]

theorem State.firstKeyDown_none (s : State) : s.firstKeyDown = none ↔ ∀ k : Reg, s.keys[k.val] = false := by
  simp [State.firstKeyDown, List.find?_eq_none]

/-- The scan finds the lowest key that is down (R182). -/
theorem State.firstKeyDown_some {s : State} {k : Reg} (hk : s.keys[k.val] = true)
    (hlow : ∀ j : Reg, j < k → s.keys[j.val] = false) : s.firstKeyDown = some k := by
  rw [State.firstKeyDown, List.find?_eq_some_iff_getElem]
  exact ⟨hk, k.val, by simp, by simp, fun j hj => by simpa using hlow ⟨j, by omega⟩ hj⟩

/-! ### Flags -/

theorem flagByte_toNat (c : Bool) : (flagByte c).toNat = if c then 1 else 0 := by cases c <;> rfl

theorem carries_iff (a b : Byte) : carries a b = true ↔ 255 < a.toNat + b.toNat := by simp [carries]

theorem noBorrow_iff (a b : Byte) : noBorrow a b = true ↔ b.toNat ≤ a.toNat := by simp [noBorrow]

end Sys2Proof.Machine
end

