-- ==== Sys2Proof/Laws/Display.lean ====
section
/-!
SUPPORT. Laws/Display.lean: the blitter (44_display.md R170) as a list of toggles: what each cell and the collision become,
and that the display keeps its shape.
-/

namespace Sys2Proof.Machine

/-- A display of `h` rows of `w` cells. -/
def Display.HasShape (fb : Display) (h w : Nat) : Prop := fb.length = h ∧ ∀ row ∈ fb, row.length = w

theorem Display.blank_shape (p : Params) : (blankDisplay p).HasShape p.displayH p.displayW := by
  refine ⟨by simp [blankDisplay], fun row h => ?_⟩
  rw [List.eq_of_mem_replicate h, List.length_replicate]

theorem Display.blank_cell (p : Params) (cy cx : Nat) : (blankDisplay p).cell cy cx = false := by
  simp only [Display.cell, blankDisplay, List.getD_eq_getElem?_getD, List.getElem?_replicate]
  split_ifs <;> simp [List.getElem?_replicate]
  split_ifs <;> rfl

/-- Displays of one shape are equal when their cells are. -/
theorem Display.ext_cell {fb gb : Display} {h w : Nat} (hf : fb.HasShape h w) (hg : gb.HasShape h w)
    (hc : ∀ y x, fb.cell y x = gb.cell y x) : fb = gb := by
  refine List.ext_getElem (hf.1.trans hg.1.symm) fun i hi hi' => ?_
  have ei := hf.2 _ (List.getElem_mem hi)
  refine List.ext_getElem (ei.trans (hg.2 _ (List.getElem_mem hi')).symm) fun j hj hj' => ?_
  simpa [Display.cell, hi, hi', hj, hj'] using hc i j

/-! ### One toggle -/

theorem Display.toggle_shape {fb : Display} {h w : Nat} (hs : fb.HasShape h w) (cy cx : Nat) :
    (fb.toggle cy cx).HasShape h w := by
  refine ⟨by simpa [Display.toggle] using hs.1, fun row hrow => ?_⟩
  obtain ⟨j, hj, rfl⟩ := List.getElem_of_mem hrow
  simp only [Display.toggle, List.length_modify] at hj
  simp only [Display.toggle, List.getElem_modify]
  split_ifs <;> simp [hs.2 _ (List.getElem_mem hj)]

theorem Display.cell_toggle {fb : Display} {h w : Nat} (hs : fb.HasShape h w) {cy cx : Nat} (hy : cy < h) (hx : cx < w)
    (y x : Nat) : (fb.toggle cy cx).cell y x = (fb.cell y x ^^ decide ((y, x) = (cy, cx))) := by
  obtain ⟨rfl, hw⟩ := hs
  have hrow : (fb[cy]).length = w := hw _ (List.getElem_mem hy)
  simp only [Display.cell, Display.toggle, List.getD_eq_getElem?_getD, List.getElem?_modify, Prod.mk.injEq]
  by_cases h1 : y = cy
  · subst h1
    by_cases h2 : x = cx
    · subst h2; simp [hy, hrow, hx]
    · have h3 : ¬ cx = x := fun e => h2 e.symm
      simp [hy, h2, h3]
  · have h3 : ¬ cy = y := fun e => h1 e.symm
    simp [h1, h3]

/-! ### A list of toggles -/

/-- Toggles one after the other. -/
def Blit.hits (b : Blit) (cells : List (Nat × Nat)) : Blit := cells.foldl (fun b c => b.hit c.1 c.2) b

theorem Blit.hits_append (b : Blit) (l m : List (Nat × Nat)) : b.hits (l ++ m) = (b.hits l).hits m := by
  simp [Blit.hits, List.foldl_append]

theorem blitRow_eq_hits (p : Params) (x0 y : Nat) (bits : Byte) (b : Blit) :
    blitRow p x0 y bits b = b.hits (spriteRowCells p x0 y bits) := by
  simp only [blitRow, Blit.hits, spriteRowCells, List.foldl_map, List.foldl_filter]
  rfl

/-- The blitter toggles the sprite's cells in order (R170). -/
theorem blitRows_eq_hits (p : Params) (x0 y : Nat) (rows : List Byte) (b : Blit) :
    blitRows p x0 y rows b = b.hits (spriteCells p x0 y rows) := by
  induction rows generalizing y b with
  | nil => rfl
  | cons bits rest ih => simp only [blitRows, spriteCells, Blit.hits_append, ih, blitRow_eq_hits]

theorem Blit.hits_shape {b : Blit} {h w : Nat} (hs : b.fb.HasShape h w) (cells : List (Nat × Nat)) :
    (b.hits cells).fb.HasShape h w := by
  induction cells generalizing b with
  | nil => exact hs
  | cons c rest ih => exact ih (b := b.hit c.1 c.2) (Display.toggle_shape hs c.1 c.2)

/-- Each cell ends inverted if an odd number of toggles landed on it. -/
theorem Blit.hits_cell {b : Blit} {h w : Nat} (hs : b.fb.HasShape h w) {cells : List (Nat × Nat)}
    (hin : ∀ c ∈ cells, c.1 < h ∧ c.2 < w) (y x : Nat) :
    (b.hits cells).fb.cell y x = (b.fb.cell y x ^^ decide (cells.count (y, x) % 2 = 1)) := by
  induction cells generalizing b with
  | nil => simp [Blit.hits]
  | cons c rest ih =>
    obtain ⟨hc, hrest⟩ := List.forall_mem_cons.1 hin
    have hstep := Display.cell_toggle hs hc.1 hc.2 y x
    have := ih (b := b.hit c.1 c.2) (Display.toggle_shape hs c.1 c.2) hrest
    rw [show b.hits (c :: rest) = (b.hit c.1 c.2).hits rest from rfl, this,
      show (b.hit c.1 c.2).fb = b.fb.toggle c.1 c.2 from rfl, hstep, List.count_cons]
    by_cases he : (y, x) = c
    · subst he
      rcases Nat.mod_two_eq_zero_or_one (rest.count (y, x)) with hp | hp
      · have h1 : (rest.count (y, x) + 1) % 2 = 1 := by omega
        simp [hp, h1]
      · have h1 : (rest.count (y, x) + 1) % 2 = 0 := by omega
        simp [hp, h1]
    · have : ¬ (c == (y, x)) = true := by simpa using fun e => he e.symm
      simp [he, this]

/-- The collision is the old one, or that some toggle found its cell lit just before (R170 e). -/
theorem Blit.hits_collided {b : Blit} {h w : Nat} (hs : b.fb.HasShape h w) {cells : List (Nat × Nat)}
    (hin : ∀ c ∈ cells, c.1 < h ∧ c.2 < w) :
    (b.hits cells).collided = true ↔ b.collided = true ∨
      ∃ k, ∃ hk : k < cells.length, (b.fb.cell cells[k].1 cells[k].2 ^^ decide ((cells.take k).count cells[k] % 2 = 1)) = true := by
  induction cells generalizing b with
  | nil => simp [Blit.hits]
  | cons c rest ih =>
    obtain ⟨hc, hrest⟩ := List.forall_mem_cons.1 hin
    rw [show b.hits (c :: rest) = (b.hit c.1 c.2).hits rest from rfl,
      ih (b := b.hit c.1 c.2) (Display.toggle_shape hs c.1 c.2) hrest]
    simp only [Blit.hit, Bool.or_eq_true, or_assoc]
    refine or_congr_right ⟨?_, ?_⟩
    · rintro (h0 | ⟨k, hk, hlit⟩)
      · exact ⟨0, by simp, by simpa using h0⟩
      · refine ⟨k + 1, by simpa using hk, ?_⟩
        rw [Display.cell_toggle hs hc.1 hc.2] at hlit
        simp only [List.getElem_cons_succ, List.take_succ_cons, List.count_cons]
        by_cases he : rest[k] = c
        · rcases Nat.mod_two_eq_zero_or_one ((rest.take k).count rest[k]) with hp | hp
          · have : ((rest.take k).count c + 1) % 2 = 1 := by rw [← he]; omega
            simp_all
          · have : ((rest.take k).count c + 1) % 2 = 0 := by rw [← he]; omega
            simp_all
        · have h2 : ¬ (c == rest[k]) = true := by simpa using fun e => he e.symm
          simpa [he, h2] using hlit
    · rintro ⟨k, hk, hlit⟩
      cases k with
      | zero => exact .inl (by simpa using hlit)
      | succ k =>
        refine .inr ⟨k, by simpa using hk, ?_⟩
        rw [Display.cell_toggle hs hc.1 hc.2]
        simp only [List.getElem_cons_succ, List.take_succ_cons, List.count_cons] at hlit
        have hk' : k < rest.length := by simpa using hk
        by_cases he : rest[k] = c
        · rcases Nat.mod_two_eq_zero_or_one ((rest.take k).count rest[k]) with hp | hp
          · have : ((rest.take k).count c + 1) % 2 = 1 := by rw [← he]; omega
            simp_all
          · have : ((rest.take k).count c + 1) % 2 = 0 := by rw [← he]; omega
            simp_all
        · have h2 : ¬ (c == rest[k]) = true := by simpa using fun e => he e.symm
          simpa [he, h2] using hlit

/-! ### The sprite's cells -/

/-- Every cell of a sprite is on the display (R170 c): the coordinates wrap. -/
theorem spriteCells_inside {p : Params} (hw : 1 ≤ p.displayW) (hh : 1 ≤ p.displayH) (x0 y : Nat) (rows : List Byte) :
    ∀ c ∈ spriteCells p x0 y rows, c.1 < p.displayH ∧ c.2 < p.displayW := by
  induction rows generalizing y with
  | nil => simp [spriteCells]
  | cons bits rest ih =>
    intro c hc
    rcases List.mem_append.1 hc with hc | hc
    · obtain ⟨col, -, rfl⟩ := List.mem_map.1 hc
      exact ⟨Nat.mod_lt _ hh, Nat.mod_lt _ hw⟩
    · exact ih (y + 1) c hc

/-- A cell is in a sprite exactly when some set bit of it lands there (R170). -/
theorem mem_spriteCells {p : Params} {x0 y : Nat} {rows : List Byte} {c : Nat × Nat} :
    c ∈ spriteCells p x0 y rows ↔
      ∃ row < rows.length, ∃ col < 8, (rows.getD row 0).getLsbD (7 - col) = true ∧
        c = ((y + row) % p.displayH, (x0 + col) % p.displayW) := by
  induction rows generalizing y with
  | nil => simp [spriteCells]
  | cons bits rest ih =>
    simp only [spriteCells, List.mem_append, ih, spriteRowCells, List.mem_map, List.mem_filter, List.mem_range]
    constructor
    · rintro (⟨col, ⟨h8, hb⟩, rfl⟩ | ⟨row, hr, col, h8, hb, rfl⟩)
      · exact ⟨0, by simp, col, h8, by simpa using hb, by simp⟩
      · exact ⟨row + 1, by simpa using hr, col, h8, by simpa using hb, by rw [Nat.add_assoc, Nat.add_comm 1 row]⟩
    · rintro ⟨row, hr, col, h8, hb, rfl⟩
      cases row with
      | zero => exact .inl ⟨col, ⟨h8, by simpa using hb⟩, by simp⟩
      | succ row =>
        exact .inr ⟨row, by simpa using hr, col, h8, by simpa using hb, by rw [Nat.add_assoc, Nat.add_comm 1 row]⟩

end Sys2Proof.Machine
end

