-- ==== Sys2Proof/Laws/PerInstr.lean ====
section
/-!
SUPPORT. Laws/PerInstr.lean: for every instruction, its encoding carries the fixed bits of its row in spec/opcode_table.json
(30_encoding.md R94 to R98); a no-op has no row of its own.
-/

namespace Sys2Proof.Laws.TableRow

/-- Every row of the table that bears the instruction's mnemonic matches the instruction's word. -/
def Statement (i : Instr) : Prop := ∀ r ∈ opcodeTable, r.mnemonic = i.mnemonic → r.hits (encode i) = true

/-- The rows of the table that bear a mnemonic. -/
theorem of_rows {i : Instr} {l : List OpcodeRow} (hl : opcodeTable.filter (fun r => r.mnemonic == i.mnemonic) = l)
    (h : ∀ r ∈ l, r.hits (encode i) = true) : Statement i :=
  fun r hr hm => h r (hl ▸ List.mem_filter.2 ⟨hr, by simp [hm]⟩)

section
variable (x y : Reg) (n : Nibble) (kk : Byte) (nnn : Addr) (w : Word)

theorem cls : Statement (.cls) := by
  refine of_rows (l := [⟨"CLS", 0xFFFF, 0x00E0⟩]) rfl (List.forall_mem_singleton.2 ?_)
  exact (hits_FFFF _ _ _).2 rfl
theorem ret : Statement (.ret) := by
  refine of_rows (l := [⟨"RET", 0xFFFF, 0x00EE⟩]) rfl (List.forall_mem_singleton.2 ?_)
  exact (hits_FFFF _ _ _).2 rfl
theorem jp : Statement (.jp nnn) := by
  refine of_rows (l := [⟨"JP_nnn", 0xF000, 0x1000⟩]) rfl (List.forall_mem_singleton.2 ?_)
  exact hits_wordNNN _ 0x1 nnn rfl
theorem call : Statement (.call nnn) := by
  refine of_rows (l := [⟨"CALL_nnn", 0xF000, 0x2000⟩]) rfl (List.forall_mem_singleton.2 ?_)
  exact hits_wordNNN _ 0x2 nnn rfl
theorem seImm : Statement (.seImm x kk) := by
  refine of_rows (l := [⟨"SE_Vx__kk", 0xF000, 0x3000⟩]) rfl (List.forall_mem_singleton.2 ?_)
  exact hits_wordXKK _ 0x3 x kk rfl
theorem sneImm : Statement (.sneImm x kk) := by
  refine of_rows (l := [⟨"SNE_Vx__kk", 0xF000, 0x4000⟩]) rfl (List.forall_mem_singleton.2 ?_)
  exact hits_wordXKK _ 0x4 x kk rfl
theorem seReg : Statement (.seReg x y n) := by
  refine of_rows (l := [⟨"SE_Vx__Vy", 0xF000, 0x5000⟩]) rfl (List.forall_mem_singleton.2 ?_)
  exact hits_wordXYN _ 0x5 x y n rfl
theorem ldImm : Statement (.ldImm x kk) := by
  refine of_rows (l := [⟨"LD_Vx__kk", 0xF000, 0x6000⟩]) rfl (List.forall_mem_singleton.2 ?_)
  exact hits_wordXKK _ 0x6 x kk rfl
theorem addImm : Statement (.addImm x kk) := by
  refine of_rows (l := [⟨"ADD_Vx__kk", 0xF000, 0x7000⟩]) rfl (List.forall_mem_singleton.2 ?_)
  exact hits_wordXKK _ 0x7 x kk rfl
theorem ldReg : Statement (.ldReg x y) := by
  refine of_rows (l := [⟨"LD_Vx__Vy", 0xF00F, 0x8000⟩]) rfl (List.forall_mem_singleton.2 ?_)
  exact hits_wordXY _ 0x8 x y 0x0 rfl
theorem or : Statement (.or x y) := by
  refine of_rows (l := [⟨"OR_Vx__Vy", 0xF00F, 0x8001⟩]) rfl (List.forall_mem_singleton.2 ?_)
  exact hits_wordXY _ 0x8 x y 0x1 rfl
theorem and : Statement (.and x y) := by
  refine of_rows (l := [⟨"AND_Vx__Vy", 0xF00F, 0x8002⟩]) rfl (List.forall_mem_singleton.2 ?_)
  exact hits_wordXY _ 0x8 x y 0x2 rfl
theorem xor : Statement (.xor x y) := by
  refine of_rows (l := [⟨"XOR_Vx__Vy", 0xF00F, 0x8003⟩]) rfl (List.forall_mem_singleton.2 ?_)
  exact hits_wordXY _ 0x8 x y 0x3 rfl
theorem addReg : Statement (.addReg x y) := by
  refine of_rows (l := [⟨"ADD_Vx__Vy", 0xF00F, 0x8004⟩]) rfl (List.forall_mem_singleton.2 ?_)
  exact hits_wordXY _ 0x8 x y 0x4 rfl
theorem sub : Statement (.sub x y) := by
  refine of_rows (l := [⟨"SUB_Vx__Vy", 0xF00F, 0x8005⟩]) rfl (List.forall_mem_singleton.2 ?_)
  exact hits_wordXY _ 0x8 x y 0x5 rfl
theorem shr : Statement (.shr x y) := by
  refine of_rows (l := [⟨"SHR_Vx", 0xF00F, 0x8006⟩]) rfl (List.forall_mem_singleton.2 ?_)
  exact hits_wordXY _ 0x8 x y 0x6 rfl
theorem subn : Statement (.subn x y) := by
  refine of_rows (l := [⟨"SUBN_Vx__Vy", 0xF00F, 0x8007⟩]) rfl (List.forall_mem_singleton.2 ?_)
  exact hits_wordXY _ 0x8 x y 0x7 rfl
theorem shl : Statement (.shl x y) := by
  refine of_rows (l := [⟨"SHL_Vx", 0xF00F, 0x800E⟩]) rfl (List.forall_mem_singleton.2 ?_)
  exact hits_wordXY _ 0x8 x y 0xE rfl
theorem sneReg : Statement (.sneReg x y n) := by
  refine of_rows (l := [⟨"SNE_Vx__Vy", 0xF000, 0x9000⟩]) rfl (List.forall_mem_singleton.2 ?_)
  exact hits_wordXYN _ 0x9 x y n rfl
theorem ldI : Statement (.ldI nnn) := by
  refine of_rows (l := [⟨"LD_I__nnn", 0xF000, 0xA000⟩]) rfl (List.forall_mem_singleton.2 ?_)
  exact hits_wordNNN _ 0xA nnn rfl
theorem jpV0 : Statement (.jpV0 nnn) := by
  refine of_rows (l := [⟨"JP_V0__nnn", 0xF000, 0xB000⟩]) rfl (List.forall_mem_singleton.2 ?_)
  exact hits_wordNNN _ 0xB nnn rfl
theorem rnd : Statement (.rnd x kk) := by
  refine of_rows (l := [⟨"RND_Vx__kk", 0xF000, 0xC000⟩]) rfl (List.forall_mem_singleton.2 ?_)
  exact hits_wordXKK _ 0xC x kk rfl
theorem drw : Statement (.drw x y n) := by
  refine of_rows (l := [⟨"DRW_Vx__Vy__n", 0xF000, 0xD000⟩]) rfl (List.forall_mem_singleton.2 ?_)
  exact hits_wordXYN _ 0xD x y n rfl
theorem skp : Statement (.skp x) := by
  refine of_rows (l := [⟨"SKP_Vx", 0xF0FF, 0xE09E⟩]) rfl (List.forall_mem_singleton.2 ?_)
  exact hits_wordX _ 0xE x 0x9E rfl
theorem sknp : Statement (.sknp x) := by
  refine of_rows (l := [⟨"SKNP_Vx", 0xF0FF, 0xE0A1⟩]) rfl (List.forall_mem_singleton.2 ?_)
  exact hits_wordX _ 0xE x 0xA1 rfl
theorem ldVxDT : Statement (.ldVxDT x) := by
  refine of_rows (l := [⟨"LD_Vx__DT", 0xF0FF, 0xF007⟩]) rfl (List.forall_mem_singleton.2 ?_)
  exact hits_wordX _ 0xF x 0x07 rfl
theorem ldVxK : Statement (.ldVxK x) := by
  refine of_rows (l := [⟨"LD_Vx__K", 0xF0FF, 0xF00A⟩]) rfl (List.forall_mem_singleton.2 ?_)
  exact hits_wordX _ 0xF x 0x0A rfl
theorem ldDTVx : Statement (.ldDTVx x) := by
  refine of_rows (l := [⟨"LD_DT__Vx", 0xF0FF, 0xF015⟩]) rfl (List.forall_mem_singleton.2 ?_)
  exact hits_wordX _ 0xF x 0x15 rfl
theorem ldSTVx : Statement (.ldSTVx x) := by
  refine of_rows (l := [⟨"LD_ST__Vx", 0xF0FF, 0xF018⟩]) rfl (List.forall_mem_singleton.2 ?_)
  exact hits_wordX _ 0xF x 0x18 rfl
theorem addIVx : Statement (.addIVx x) := by
  refine of_rows (l := [⟨"ADD_I__Vx", 0xF0FF, 0xF01E⟩]) rfl (List.forall_mem_singleton.2 ?_)
  exact hits_wordX _ 0xF x 0x1E rfl
theorem ldFVx : Statement (.ldFVx x) := by
  refine of_rows (l := [⟨"LD_F__Vx", 0xF0FF, 0xF029⟩]) rfl (List.forall_mem_singleton.2 ?_)
  exact hits_wordX _ 0xF x 0x29 rfl
theorem ldBVx : Statement (.ldBVx x) := by
  refine of_rows (l := [⟨"LD_B__Vx", 0xF0FF, 0xF033⟩]) rfl (List.forall_mem_singleton.2 ?_)
  exact hits_wordX _ 0xF x 0x33 rfl
theorem ldMemVx : Statement (.ldMemVx x) := by
  refine of_rows (l := [⟨"LD__I___Vx", 0xF0FF, 0xF055⟩]) rfl (List.forall_mem_singleton.2 ?_)
  exact hits_wordX _ 0xF x 0x55 rfl
theorem ldVxMem : Statement (.ldVxMem x) := by
  refine of_rows (l := [⟨"LD_Vx___I", 0xF0FF, 0xF065⟩]) rfl (List.forall_mem_singleton.2 ?_)
  exact hits_wordX _ 0xF x 0x65 rfl
theorem nop : Statement (.nop w) := of_rows (l := []) rfl (by simp)

end

end Sys2Proof.Laws.TableRow
end

