-- ==== Sys2Proof/Laws/Step.lean ====
section
/-!
SUPPORT. Laws/Step.lean: everything a step can do (48_host_operations.md R203), and how the memory instructions end.
-/

namespace Sys2Proof.Machine

theorem step_faulted {s : State} {c : Cause} (h : s.status = .faulted c) : step s = .next s := by simp [step, h]

theorem step_fetched {s : State} {w : Word} (hr : s.status = .running) (hf : s.fetch = .ok w) :
    step s = exec (decode w) s.advance := by simp [step, hr, hf]

theorem step_unfetched {s : State} {c : Cause} (hr : s.status = .running) (hf : s.fetch = .error c) :
    step s = .next (s.raise c) := by simp [step, hr, hf]

/-- Everything a step that answers `t` can have done: nothing, a faulting fetch, or one instruction. -/
theorem step_cases {s t : State} (h : step s = .next t) :
    (∃ c, s.status = .faulted c ∧ t = s) ∨
    (∃ c, s.status = .running ∧ s.fetch = .error c ∧ t = s.raise c) ∨
    (∃ w, s.status = .running ∧ s.fetch = .ok w ∧ exec (decode w) s.advance = .next t) := by
  cases hs : s.status with
  | faulted c => rw [step_faulted hs] at h; exact .inl ⟨c, rfl, by cases h; rfl⟩
  | running =>
    cases hf : s.fetch with
    | error c => rw [step_unfetched hs hf] at h; exact .inr (.inl ⟨c, rfl, rfl, by cases h; rfl⟩)
    | ok w => rw [step_fetched hs hf] at h; exact .inr (.inr ⟨w, rfl, rfl, h⟩)

/-! ### Instructions that can fault, as one equation each -/

theorem execDrw_eq (x y : Reg) (n : Nibble) (s : State) :
    execDrw x y n s = .next (if n.toNat = 0 ∨ s.i.toNat + n.toNat ≤ s.params.memSize then
      s.finishBlit (blit s.params (s.reg x).toNat (s.reg y).toNat
        ((List.range n.toNat).map fun k => s.byte (s.i.toNat + k)) s.fb)
      else s.raise (.memoryOutOfBounds (max s.i.toNat s.params.memSize))) := by
  unfold execDrw; rw [State.loadBytes_eq]; split_ifs <;> rfl

theorem execLdBVx_eq (x : Reg) (s : State) :
    execLdBVx x s = .next (if s.i.toNat + 3 ≤ s.params.memSize then s.writeBytes s.i.toNat (decimalDigits (s.reg x))
      else s.raise (.memoryOutOfBounds (max s.i.toNat s.params.memSize))) := by
  have h : (decimalDigits (s.reg x)).length = 3 := rfl
  unfold execLdBVx; rw [State.storeBytes_eq, h]; simp only [OfNat.ofNat_ne_zero, false_or]; split_ifs <;> rfl

theorem execLdMemVx_eq (x : Reg) (s : State) :
    execLdMemVx x s = .next (if s.i.toNat + (x.val + 1) ≤ s.params.memSize then s.writeBytes s.i.toNat (s.regsUpTo x)
      else s.raise (.memoryOutOfBounds (max s.i.toNat s.params.memSize))) := by
  unfold execLdMemVx
  rw [State.storeBytes_eq, State.regsUpTo_length]; simp only [Nat.succ_ne_zero, false_or]; split_ifs <;> rfl

theorem execLdVxMem_eq (x : Reg) (s : State) :
    execLdVxMem x s = .next (if s.i.toNat + (x.val + 1) ≤ s.params.memSize then
      s.loadRegs ((List.range (x.val + 1)).map fun k => s.byte (s.i.toNat + k))
      else s.raise (.memoryOutOfBounds (max s.i.toNat s.params.memSize))) := by
  unfold execLdVxMem; rw [State.loadBytes_eq]; simp only [Nat.succ_ne_zero, false_or]; split_ifs <;> rfl

theorem execSkp_eq (x : Reg) (s : State) :
    execSkp x s = .next (if h : (s.reg x).toNat < 16 then s.skipIf s.keys[(s.reg x).toNat]
      else s.raise (.keyIndexOutOfRange (s.reg x).toNat)) := by
  unfold execSkp State.isDown; split_ifs <;> rfl

theorem execSknp_eq (x : Reg) (s : State) :
    execSknp x s = .next (if h : (s.reg x).toNat < 16 then s.skipIf (!s.keys[(s.reg x).toNat])
      else s.raise (.keyIndexOutOfRange (s.reg x).toNat)) := by
  unfold execSknp State.isDown; split_ifs <;> rfl

theorem execCall_eq (nnn : Addr) (s : State) :
    execCall nnn s = .next (if s.sp.toNat = s.params.stackDepth then s.raise (.stackOverflow s.pc)
      else { s with stack := s.stack.set s.sp.toNat s.pc, sp := s.sp + 1, pc := addrWord nnn }) := by
  unfold execCall State.push; split_ifs <;> rfl

theorem execRet_eq (s : State) :
    execRet s = .next (if s.sp = 0 then s.raise .stackUnderflow
      else { s with sp := s.sp - 1, pc := s.stack.getD (s.sp - 1).toNat 0 }) := by
  unfold execRet State.pop; split_ifs <;> rfl

end Sys2Proof.Machine
end

