-- ==== Sys2Proof/Tests/Slice0.lean ====
section
/-!
SUPPORT. Tests/Slice0.lean: small tests. Expected results come from spec/95_test_vectors.md (named by the vector's id) or from
the encodings of 30_encoding.md; the witnesses show states and operands that meet the hypotheses of the statements.
-/

namespace Sys2Proof.Tests

open Sys2Proof Sys2Proof.Machine

/-! ## Well-formedness: an ill-formed term for each check -/

theorem test_wellformed_nop : (Instr.nop 0x8128).wellFormed = true := by decide
theorem test_illformed_nop_cls : (Instr.nop 0x00E0).wellFormed = false := by decide
theorem test_illformed_nop_family8 : (Instr.nop 0x8127).wellFormed = false := by decide
theorem test_illformed_nop_familyE : (Instr.nop 0xE19E).wellFormed = false := by decide
theorem test_illformed_nop_familyF : (Instr.nop 0xF165).wellFormed = false := by decide
theorem test_illformed_nop_family5 : (Instr.nop 0x5121).wellFormed = false := by decide
theorem test_wellformed_params : Params.default.wellFormed = true := by decide
theorem test_illformed_memSize : { Params.default with memSize := 4097 }.wellFormed = false := by decide
theorem test_illformed_loadOffset : { Params.default with memSize := 511 }.wellFormed = false := by decide
theorem test_illformed_glyphs_overlap : { Params.default with loadOffset := 79 }.wellFormed = false := by decide
theorem test_illformed_stackDepth_low : { Params.default with stackDepth := 0 }.wellFormed = false := by decide
theorem test_illformed_stackDepth_high : { Params.default with stackDepth := 256 }.wellFormed = false := by decide
theorem test_illformed_displayW : { Params.default with displayW := 0 }.wellFormed = false := by decide
theorem test_illformed_displayH : { Params.default with displayH := 0 }.wellFormed = false := by decide
theorem test_illformed_shlFlagBit : { Params.default with shlFlagBit := 1 }.wellFormed = false := by decide
theorem test_illformed_glyphTable : { Params.default with glyphTable := [0xF0] }.wellFormed = false := by decide

/-! ## Decoding: words written bit by bit from R91 and R94 to R98 -/

theorem test_decode_cls : decode 0b0000000011100000 = .cls := by decide
theorem test_decode_ret : decode 0b0000000011101110 = .ret := by decide
theorem test_decode_jp : decode 0b0001001000000110 = .jp 0x206 := by decide
theorem test_decode_call : decode 0b0010001000001000 = .call 0x208 := by decide
theorem test_decode_seImm : decode 0b0011001100101010 = .seImm 3 0x2A := by decide
theorem test_decode_sneImm : decode 0b0100001100101010 = .sneImm 3 0x2A := by decide
theorem test_decode_seReg : decode 0b0101000100101111 = .seReg 1 2 0xF := by decide
theorem test_decode_ldImm : decode 0b0110111100000001 = .ldImm 15 1 := by decide
theorem test_decode_addImm : decode 0b0111001000100000 = .addImm 2 0x20 := by decide
theorem test_decode_ldReg : decode 0b1000000000010000 = .ldReg 0 1 := by decide
theorem test_decode_or : decode 0b1000000000010001 = .or 0 1 := by decide
theorem test_decode_and : decode 0b1000000000010010 = .and 0 1 := by decide
theorem test_decode_xor : decode 0b1000000000010011 = .xor 0 1 := by decide
theorem test_decode_addReg : decode 0b1000000000010100 = .addReg 0 1 := by decide
theorem test_decode_sub : decode 0b1000000000010101 = .sub 0 1 := by decide
theorem test_decode_shr : decode 0b1000001000110110 = .shr 2 3 := by decide
theorem test_decode_subn : decode 0b1000000000010111 = .subn 0 1 := by decide
theorem test_decode_shl : decode 0b1000001000111110 = .shl 2 3 := by decide
theorem test_decode_sneReg : decode 0b1001000100100111 = .sneReg 1 2 7 := by decide
theorem test_decode_ldI : decode 0b1010001100000000 = .ldI 0x300 := by decide
theorem test_decode_jpV0 : decode 0b1011001100000000 = .jpV0 0x300 := by decide
theorem test_decode_rnd : decode 0b1100000100001111 = .rnd 1 0x0F := by decide
theorem test_decode_drw : decode 0b1101000000010010 = .drw 0 1 2 := by decide
theorem test_decode_skp : decode 0b1110010010011110 = .skp 4 := by decide
theorem test_decode_sknp : decode 0b1110010010100001 = .sknp 4 := by decide
theorem test_decode_ldVxDT : decode 0b1111010100000111 = .ldVxDT 5 := by decide
theorem test_decode_ldVxK : decode 0b1111001100001010 = .ldVxK 3 := by decide
theorem test_decode_ldDTVx : decode 0b1111010100010101 = .ldDTVx 5 := by decide
theorem test_decode_ldSTVx : decode 0b1111010100011000 = .ldSTVx 5 := by decide
theorem test_decode_addIVx : decode 0b1111001000011110 = .addIVx 2 := by decide
theorem test_decode_ldFVx : decode 0b1111001000101001 = .ldFVx 2 := by decide
theorem test_decode_ldBVx : decode 0b1111000100110011 = .ldBVx 1 := by decide
theorem test_decode_ldMemVx : decode 0b1111000101010101 = .ldMemVx 1 := by decide
theorem test_decode_ldVxMem : decode 0b1111000101100101 = .ldVxMem 1 := by decide
theorem test_decode_nop : decode 0b1111000111111111 = .nop 0xF1FF := by decide

/-- Big-endian: the byte at the lower address is the high one (E3, R63). -/
theorem test_decode_bytes : decodeBytes [0x12, 0x34, 0x56] = .ok (.jp 0x234, [0x56]) := by decide
theorem test_decode_truncated : decodeBytes [0x12] = .error .truncated := by decide
theorem test_decode_table_word : decodeTableWord 16 0x8014 = some (.addReg 0 1) := by decide

/-! ## One step -/

/-- The reset state, some registers changed. -/
def withRegs (l : List (Reg × Byte)) : State := l.foldl (fun s c => s.setReg c.1 c.2) State.reset

/-- The same under other parameters. -/
def under (p : Params) (l : List (Reg × Byte)) : State := l.foldl (fun s c => s.setReg c.1 c.2) (State.resetOf p)

/-- The state after one `STEP` of a word stored at `pc`. -/
def after (w : Nat) (s : State) : State := (s.withFetchWord 16 w).hostStep

/-! ### Control transfer (vectors F) -/

theorem test_ret_F3 : (fun t : State => (t.pc, t.sp, t.stack.getD 15 0))
    (after 0x00EE { State.reset with sp := 16, stack := State.reset.stack.set 15 0xABC }) = (0xABC, 15, 0xABC) := by decide
theorem test_ret_F2 : (fun t : State => (t.pc, t.sp, t.status)) (after 0x00EE State.reset) =
    (0x202, 0, .faulted .stackUnderflow) := by decide
theorem test_jp_F5 : (after 0x1FFF State.reset).pc = 0xFFF := by decide
theorem test_call_F7 : (fun t : State => (t.pc, t.sp, t.stack.getD 15 0)) (after 0x2208 { State.reset with sp := 15 }) =
    (0x208, 16, 0x202) := by decide
theorem test_call_F8 : (fun t : State => (t.pc, t.sp, t.stack, t.status)) (after 0x2208 { State.reset with sp := 16 }) =
    (0x202, 16, State.reset.stack, .faulted (.stackOverflow 0x202)) := by decide
theorem test_jpV0_F12 : (after 0xBFFF (withRegs [(0, 0xFF)])).pc = 0x10FE := by decide
theorem test_jpV0_F13 :
    (after 0xBFFF { under { Params.default with jpV0Accumulate := true } [(0, 0xFF)] with pc := 0xFFE }).pc = 0x20FE := by
  decide
theorem test_nop_F18 : (fun t : State => (t.pc, t.status)) (after 0xE19F (withRegs [(1, 0x20)])) = (0x202, .running) := by
  decide

/-! ### Skips (vectors S) -/

theorem test_seImm_S1 : (after 0x332A (withRegs [(3, 0x2A)])).pc = 0x204 := by decide
theorem test_seImm_S2 : (after 0x332A (withRegs [(3, 0x2B)])).pc = 0x202 := by decide
theorem test_sneImm_S3 : (after 0x432A (withRegs [(3, 0x2A)])).pc = 0x202 := by decide
theorem test_sneImm_S4 : (after 0x432A State.reset).pc = 0x204 := by decide
theorem test_seReg_S7 : (after 0x512F (withRegs [(1, 7), (2, 7)])).pc = 0x204 := by decide
theorem test_seReg_S6 : (after 0x5120 (withRegs [(1, 7), (2, 8)])).pc = 0x202 := by decide
theorem test_sneReg_S11 : (after 0x9127 (withRegs [(1, 7), (2, 8)])).pc = 0x204 := by decide
theorem test_sneReg_S10 : (after 0x9120 (withRegs [(1, 7), (2, 7)])).pc = 0x202 := by decide

/-! ### Immediates (vectors I) -/

theorem test_ldImm_I2 : (fun t : State => (t.reg 15, t.pc)) (after 0x6F01 State.reset) = (1, 0x202) := by decide
theorem test_addImm_I5 : (fun t : State => (t.reg 2, t.reg 15)) (after 0x7220 (withRegs [(2, 0xF0), (15, 7)])) =
    (0x10, 7) := by decide
theorem test_ldI_I7 : (after 0xAFFF State.reset).i = 0xFFF := by decide
theorem test_rnd_I8 : (State.reset.maskInto 0xA7 1 0x0F).reg 1 = 0x07 := by decide
theorem test_rnd_I9 : ((withRegs [(1, 0x55)]).maskInto 0x30 1 0x0F).reg 1 = 0x00 := by decide

/-! ### Register-register group (vectors A) -/

theorem test_ldReg_A2 : (after 0x8F10 (withRegs [(1, 0x99)])).reg 15 = 0x99 := by decide
theorem test_or_A3 : (fun t : State => (t.reg 0, t.reg 15)) (after 0x8011 (withRegs [(0, 0xF0), (1, 0x0F), (15, 1)])) =
    (0xFF, 1) := by decide
theorem test_and_A4 : (fun t : State => (t.reg 0, t.reg 15)) (after 0x8012 (withRegs [(0, 0xF3), (1, 0x3C), (15, 1)])) =
    (0x30, 1) := by decide
theorem test_xor_A5 : (fun t : State => (t.reg 0, t.reg 15)) (after 0x8013 (withRegs [(0, 0xFF), (1, 0x0F), (15, 1)])) =
    (0xF0, 1) := by decide
theorem test_addReg_A8 : (fun t : State => (t.reg 0, t.reg 15)) (after 0x8014 (withRegs [(0, 10), (1, 20), (15, 1)])) =
    (30, 1) := by decide
theorem test_addReg_A13 : (after 0x8F14 (withRegs [(15, 200), (1, 100)])).reg 15 = 0x2C := by decide
theorem test_sub_A17 : (fun t : State => (t.reg 0, t.reg 15)) (after 0x8015 (withRegs [(0, 5), (1, 10), (15, 1)])) =
    (0xFB, 0) := by decide
theorem test_sub_A22 : (fun t : State => (t.reg 0, t.reg 15)) (after 0x80F5 (withRegs [(0, 5), (15, 9)])) = (0xFC, 0) := by
  decide
theorem test_shr_A29 : (fun t : State => (t.reg 2, t.reg 3, t.reg 15))
    (after 0x8236 (withRegs [(2, 0x04), (3, 0xFF), (15, 1)])) = (0x02, 0xFF, 0) := by decide
theorem test_shr_A30 : (after 0x8F06 (withRegs [(15, 0x05)])).reg 15 = 0x02 := by decide
theorem test_subn_A24 : (fun t : State => (t.reg 0, t.reg 15)) (after 0x8017 (withRegs [(0, 10), (1, 5), (15, 1)])) =
    (0xFB, 0) := by decide
theorem test_subn_A25 : (fun t : State => (t.reg 0, t.reg 15)) (after 0x8017 (withRegs [(0, 7), (1, 7)])) = (0, 1) := by
  decide
theorem test_shl_A35 : (fun t : State => (t.reg 2, t.reg 15)) (after 0x820E (withRegs [(2, 0x01)])) = (0x02, 1) := by decide
theorem test_shl_A34 : (fun t : State => (t.reg 2, t.reg 15))
    (after 0x820E (under { Params.default with shlFlagBit := 7 } [(2, 0x80)])) = (0x00, 1) := by decide

/-! ### Display (vectors DW) -/

/-- The reset display with some cells lit. -/
def lit (cells : List (Nat × Nat)) (s : State) : State := { s with fb := cells.foldl (fun fb c => fb.toggle c.1 c.2) s.fb }

theorem test_cls_DW1 : (fun t : State => (t.fb.cell 31 63, t.fb.cell 5 7, t.reg 15))
    (after 0x00E0 (lit [(31, 63), (5, 7)] (withRegs [(15, 1)]))) = (false, false, 1) := by decide
theorem test_drw_DW3 : (fun t : State => (t.fb.cell 0 0, t.fb.cell 0 1, t.reg 15))
    (after 0xD011 (lit [(0, 1)] (({ State.reset with i := 0x300 }).setByte 0x300 0xC0))) = (true, false, 1) := by decide
theorem test_drw_DW2 : (fun t : State => (t.fb.cell 31 60, t.fb.cell 31 3, t.fb.cell 0 60, t.fb.cell 0 3, t.fb.cell 0 61, t.reg 15))
    (after 0xD012 ((({ withRegs [(0, 60), (1, 31)] with i := 0x20E }).setByte 0x20E 0xFF).setByte 0x20F 0x81)) =
    (true, true, true, true, false, 0) := by decide

/-! ### Keys (vectors KY) -/

theorem test_skp_KY1 : (after 0xE49E { withRegs [(4, 0x0A)] with keys := State.reset.keys.set 10 true }).pc = 0x204 := by
  decide
theorem test_skp_KY3 : (fun t : State => (t.pc, t.status))
    (after 0xE49E { withRegs [(4, 0x10)] with keys := State.reset.keys.set 0 true }) =
    (0x202, .faulted (.keyIndexOutOfRange 16)) := by decide
theorem test_sknp_KY4 : (after 0xE4A1 (withRegs [(4, 0x0A)])).pc = 0x204 := by decide
theorem test_sknp_KY5 : (after 0xE4A1 { withRegs [(4, 0x0A)] with keys := State.reset.keys.set 10 true }).pc = 0x202 := by
  decide
theorem test_ldVxK_KY7 : (after 0xF30A { State.reset with pc := 0x210 }).pc = 0x210 := by decide
theorem test_ldVxK_KY8 : (fun t : State => (t.reg 3, t.pc))
    (after 0xF30A { State.reset with pc := 0x210, keys := (State.reset.keys.set 7 true).set 2 true }) = (2, 0x212) := by
  decide

/-! ### Timers, index register, memory transfers (vectors M) -/

theorem test_ldVxDT_M1 : (after 0xF507 { State.reset with dt := 0x3C }).reg 5 = 0x3C := by decide
theorem test_ldDTVx_M2 : (fun t : State => (t.dt, t.st)) (after 0xF515 (withRegs [(5, 0x3C)])) = (0x3C, 0) := by decide
theorem test_ldSTVx_M3 : (fun t : State => (t.dt, t.st)) (after 0xF518 (withRegs [(5, 0x04)])) = (0, 0x04) := by decide
theorem test_addIVx_M5 : (fun t : State => (t.i, t.reg 15)) (after 0xF21E { withRegs [(2, 1)] with i := 0xFFF }) =
    (0x1000, 0) := by decide
theorem test_addIVx_M6 : (after 0xF21E { withRegs [(2, 1)] with i := 0xFFFF }).i = 0 := by decide
theorem test_ldFVx_M10 : (after 0xF229 (withRegs [(2, 0xFF)])).i = 75 := by decide
theorem test_ldBVx_M11 : (fun t : State => (t.byte 0x300, t.byte 0x301, t.byte 0x302))
    (after 0xF133 { withRegs [(1, 234)] with i := 0x300 }) = (2, 3, 4) := by decide
theorem test_ldBVx_M15 : (fun t : State => (t.byte 0xFFE, t.status)) (after 0xF133 { withRegs [(1, 123)] with i := 0xFFE }) =
    (0, .faulted (.memoryOutOfBounds 0x1000)) := by decide
theorem test_ldMemVx_M16 : (fun t : State => (t.byte 0x400, t.byte 0x401, t.byte 0x402, t.i))
    (after 0xF155 { withRegs [(0, 0x72), (1, 0xC8), (2, 0x11)] with i := 0x400 }) = (0x72, 0xC8, 0, 0x400) := by decide
theorem test_ldMemVx_M18 : (fun t : State => (t.byte 0xFFF, t.status))
    (after 0xF155 { withRegs [(0, 0x72), (1, 0xC8)] with i := 0xFFF }) = (0, .faulted (.memoryOutOfBounds 0x1000)) := by
  decide
theorem test_ldVxMem_M21 : (fun t : State => (t.reg 0, t.reg 5, t.reg 15)) (after 0xFF65 State.reset) =
    (0xF0, 0x20, 0xF0) := by decide
theorem test_ldVxMem_M22 : (fun t : State => (t.reg 0, t.reg 1, t.status))
    (after 0xF165 { (withRegs [(0, 1), (1, 2)]).setByte 0xFFF 0x12 with i := 0xFFF }) =
    (1, 2, .faulted (.memoryOutOfBounds 0x1000)) := by decide

/-! ### Fetch (vectors X) -/

theorem test_fetch_X1 : (fun t : State => (t.reg 0, t.pc)) (after 0x6005 { State.reset with pc := 0xFFE }) = (5, 0x1000) := by
  decide
theorem test_fetch_X2 : (fun t : State => (t.pc, t.status)) (after 0x6005 { State.reset with pc := 0xFFF }) =
    (0xFFF, .faulted (.memoryOutOfBounds 0x1000)) := by decide
theorem test_fetch_X3 : (fun t : State => (t.pc, t.status)) (after 0x6005 { State.reset with pc := 0x1000 }) =
    (0x1000, .faulted (.memoryOutOfBounds 0x1000)) := by decide
theorem test_fetch_X4 : (fun t : State => (t.reg 0, t.pc)) (after 0x6005 { State.reset with pc := 0x201 }) = (5, 0x203) := by
  decide

/-! ### Host operations (vectors H) -/

theorem test_host_H5_tick : (fun t : State => (t.dt, t.st)) (hostApply .tick { State.reset with dt := 1 }) = (0, 0) := by
  decide
theorem test_host_H7_tick : (fun t : State => (t.dt, t.st)) (hostApply .tick { State.reset with dt := 255, st := 3 }) =
    (254, 2) := by decide
theorem test_host_H11_key : (hostApply (.keyPress 16) State.reset).status = .faulted (.keyIndexOutOfRange 16) := by decide
theorem test_host_H12_pixel : hostReport (.pixel 63 31) (lit [(31, 63)] State.reset) = .pixel true := by decide
theorem test_host_H14_pixel : hostReport (.pixel 0 32) State.reset = .fault (.displayCoordinateOutOfRange 0 32) := by decide
theorem test_host_H15_sticky : (fun t : State => (t.pc, t.dt, t.status))
    (hostRun [.step, .tick, .keyPress 1] { State.reset with dt := 5, status := .faulted .stackUnderflow }) =
    (0x200, 5, .faulted .stackUnderflow) := by decide
theorem test_host_load_P1 : (fun t : State => (t.byte 0x200, t.byte 0x207, t.pc))
    (hostApply (.loadImage [0x60, 0x05, 0x61, 0x03, 0x80, 0x14, 0x12, 0x06]) State.reset) = (0x60, 0x06, 0x200) := by decide

/-! ## Witnesses: the hypotheses of the statements are met, each clause at a boundary value -/

/-- A state that is not the reset state and meets the invariants. -/
def base : State := { withRegs [(1, 234), (2, 16), (3, 15)] with
  pc := 0x300, i := 0xFFD, sp := 1, stack := State.reset.stack.set 0 0xABC }

theorem test_witness_Inv : base.Inv where
  params := by decide
  memory := by decide
  spBound := by decide
  stackSize := by decide
  rows := by decide
  columns := fun _ h => by rw [List.eq_of_mem_replicate h]; decide

/-- The same with any stack pointer, index, `pc` and registers that keep the bound. -/
theorem base_inv (sp : Byte) (i pc : Word) (v : Vector Byte 16) (h : sp.toNat ≤ 16) :
    { base with sp := sp, i := i, pc := pc, v := v }.Inv :=
  ⟨test_witness_Inv.params, test_witness_Inv.memory, h, test_witness_Inv.stackSize, test_witness_Inv.rows,
    test_witness_Inv.columns⟩

theorem test_witness_PcInv : base.PcInv where
  pc := by decide
  returns := fun a h => by
    rcases List.mem_or_eq_of_mem_set h with h | rfl
    · rw [List.eq_of_mem_replicate h]; decide
    · decide

theorem test_witness_DecodeEncodeRoundTrip : (Instr.nop 0x8128).wellFormed = true ∧ (Instr.drw 15 15 15).wellFormed = true := by
  decide
theorem test_witness_OpcodeRowsDisjoint :
    (⟨"SHL_Vx", 0xF00F, 0x800E⟩ : OpcodeRow) ∈ opcodeTable ∧ (⟨"SHL_Vx", 0xF00F, 0x800E⟩ : OpcodeRow).hits 0x8FFE = true := by
  decide
theorem test_witness_IgnoredBits :
    (fieldOp 0x5120 = 0x5 ∧ (0x5120 : Word) &&& 0xFFF0 = 0x512F &&& 0xFFF0) ∧
    (fieldOp 0x9120 = 0x9 ∧ (0x9120 : Word) &&& 0xFFF0 = 0x9127 &&& 0xFFF0) ∧
    (fieldOp 0x8206 = 0x8 ∧ fieldN 0x8206 = 0x6 ∧ (0x8206 : Word) &&& 0xFF0F = 0x8236 &&& 0xFF0F) ∧
    (fieldOp 0x820E = 0x8 ∧ fieldN 0x820E = 0xE ∧ (0x820E : Word) &&& 0xFF0F = 0x82FE &&& 0xFF0F) ∧
    (unassigned 0x0000 = true ∧ unassigned 0xFFFF = true) := by decide

/-- `ADD V0, V1` at the last address an instruction can stand at. -/
def lastWord : State := { base with pc := 0xFFE }.withFetchWord 16 0x8014

theorem test_witness_StepRunsDecodedInstruction :
    lastWord.status = .running ∧ lastWord.pc.toNat + 1 < lastWord.params.memSize ∧
    (0x8014 : Word).toNat = (lastWord.byte lastWord.pc.toNat).toNat * 256 + (lastWord.byte (lastWord.pc.toNat + 1)).toNat := by
  decide
theorem test_witness_StepKeepsInvariants : ∃ t, step base = .next t := ⟨_, rfl⟩
theorem test_witness_FetchOutOfRange :
    ({ base with pc := 0x1000 }.status = .running ∧ base.params.memSize ≤ { base with pc := 0x1000 }.pc.toNat) ∧
    { base with pc := 0xFFF }.pc.toNat + 1 = base.params.memSize := by decide
theorem test_witness_StoredWordIsFetched :
    ∃ t, { base with pc := 0xFFE }.storeBytes 0xFFE (bytesOfWord 0x6005) = .ok t := ⟨_, rfl⟩

/-- A fault of the execute phase (`RET` on an empty stack) and one of the fetch. -/
theorem test_witness_FaultsArePrecise :
    (∃ t, step (State.reset.withFetchWord 16 0x00EE) = .next t ∧ t.status = .faulted .stackUnderflow) ∧
    (State.reset.withFetchWord 16 0x00EE).pc.toNat + 1 < 4096 ∧
    (∃ t, step { base with pc := 0xFFF } = .next t ∧ t.status = .faulted (.memoryOutOfBounds 0x1000)) ∧
    4096 ≤ { base with pc := 0xFFF }.pc.toNat + 1 := ⟨⟨_, rfl, by decide⟩, by decide, ⟨_, rfl, by decide⟩, by decide⟩

/-- `JP 0x206` at 0x206 (vector F4). -/
def finished : State := { base with pc := 0x206 }.withFetchWord 16 0x1206

theorem test_witness_FinishedProgramStays : finished.Finished := ⟨by decide, by decide, by decide⟩
theorem test_witness_finished_inv : finished.Inv :=
  ⟨by decide, by decide, by decide, by decide, by decide, test_witness_Inv.columns⟩

theorem test_witness_ByteStoreAndLoad : 4095 < base.params.memSize ∧ base.params.memSize ≤ 4096 := by decide
theorem test_witness_MemoryInstructionsFaultLowest :
    ((2 : Nibble) ≠ 0 ∧ base.params.memSize < { base with i := 0xFFF }.i.toNat + (2 : Nibble).toNat) ∧
    base.params.memSize < { base with i := 0xFFE }.i.toNat + 3 ∧
    base.params.memSize < { base with i := 0x1000 }.i.toNat + ((0 : Reg).val + 1) := by decide
theorem test_witness_ReturnPops :
    (base.sp ≠ 0 ∧ base.stack[base.sp.toNat - 1]? = some 0xABC) ∧
    ({ base with sp := 16 }.sp ≠ 0 ∧ { base with sp := 16 }.stack[{ base with sp := 16 }.sp.toNat - 1]? = some 0) ∧
    State.reset.sp = 0 := by decide
theorem test_witness_CallPushesReturnAddress :
    ({ base with sp := 15 }.Inv ∧ { base with sp := 15 }.sp.toNat < base.params.stackDepth) ∧
    { base with sp := 16 }.sp.toNat = base.params.stackDepth :=
  ⟨⟨base_inv 15 base.i base.pc base.v (by decide), by decide⟩, by decide⟩
theorem test_witness_StackIsLifo : base.Inv ∧ base.sp.toNat + (List.replicate 15 (0x202 : Word)).length ≤ base.params.stackDepth :=
  ⟨test_witness_Inv, by decide⟩
theorem test_witness_IndexedJump :
    base.params.jpV0Accumulate = false ∧
    (under { Params.default with jpV0Accumulate := true } []).params.jpV0Accumulate = true := by decide
theorem test_witness_NopOnlyAdvances :
    base.status = .running ∧ base.fetch = .ok 0x0000 ∧ unassigned 0x0000 = true := by decide
theorem test_witness_flag_not_destination : (14 : Reg) ≠ vf := by decide
theorem test_witness_RandomByteIsMasked : (0x00 : Byte) = 0 := rfl

theorem test_witness_Draw :
    ({ base with i := 0xFFF }.Inv ∧ { base with i := 0xFFF }.i.toNat + (1 : Nibble).toNat ≤ base.params.memSize) ∧
    ({ base with i := 0xFFFF }.Inv ∧ (0 : Nibble) = 0) ∧ 8 ≤ base.params.displayW ∧ 15 ≤ base.params.displayH :=
  ⟨⟨base_inv 1 0xFFF base.pc base.v (by decide), by decide⟩,
    ⟨base_inv 1 0xFFFF base.pc base.v (by decide), rfl⟩, by decide, by decide⟩
theorem test_witness_DrawTwiceRestores :
    1 ≤ { Params.default with displayW := 1, displayH := 1 }.displayW ∧
    1 ≤ { Params.default with displayW := 1, displayH := 1 }.displayH ∧
    ([[true]] : Display).length = 1 ∧ ∀ row ∈ ([[true]] : Display), row.length = 1 := by decide
theorem test_witness_KeySkips :
    (base.reg 3).toNat = (15 : Reg).val ∧ 15 < (base.reg 2).toNat := by decide

/-- Keys 2 and 7 are down (vector KY8). -/
def twoKeys : State := { base with keys := (base.keys.set 7 true).set 2 true }

theorem test_witness_WaitForKeyStoresLowest :
    twoKeys.keys[(2 : Reg).val] = true ∧ ∀ j : Reg, j < 2 → twoKeys.keys[j.val] = false := by decide
theorem test_witness_WaitForKeyRefetches :
    (∀ k : Reg, (base.withFetchWord 16 0xF30A).keys[k.val] = false) ∧ (base.withFetchWord 16 0xF30A).status = .running ∧
    (base.withFetchWord 16 0xF30A).fetch = .ok 0xF30A ∧ decode 0xF30A = .ldVxK 3 := by decide
theorem test_witness_DecimalDigitsStored : base.i.toNat + 2 < base.params.memSize := by decide
theorem test_witness_RegistersStoredLoaded :
    { base with i := 0xFF0 }.i.toNat + (15 : Reg).val < base.params.memSize ∧
    { base with i := 0xFFF }.i.toNat + (0 : Reg).val < base.params.memSize := by decide
theorem test_witness_LoadImageCopies :
    base.status = .running ∧
    base.params.loadOffset + (List.replicate 3584 (0xAB : Byte)).length ≤ base.params.memSize ∧
    base.params.memSize < base.params.loadOffset + (List.replicate 3585 (0xAB : Byte)).length := by
  rw [List.length_replicate, List.length_replicate]; decide
/-- Keys 15 and 16. -/
theorem test_witness_KeyEvents : base.status = .running ∧ 15 < 16 ∧ 15 < (16 : Nat) := by decide
theorem test_witness_PixelReads :
    (63 < base.params.displayW ∧ 31 < base.params.displayH) ∧ base.params.displayW ≤ 64 ∧ base.params.displayH ≤ 32 := by decide
theorem test_witness_FaultIsSticky :
    { base with status := .faulted .stackUnderflow }.status = .faulted .stackUnderflow ∧ HostOp.tick ≠ .reset := by decide

end Sys2Proof.Tests
end

section
/-!
Every step answers a next state (00_scope.md R9): no meaning refuses, and a fault is a next state (60_exceptions.md R240).
-/

namespace Sys2Proof.Machine

/-- An operation that may fault answers a next state either way (R240). -/
theorem State.commit_total (s : State) (r : Except Cause State) : ∃ t, s.commit r = .next t := by
  cases r with
  | ok t => exact ⟨t, s.commit_ok t⟩
  | error c => exact ⟨s.raise c, s.commit_error c⟩

/-- The key wait answers a next state whether or not a key is down (R182). -/
theorem execLdVxK_total (x : Reg) (s : State) : ∃ t, execLdVxK x s = .next t := by
  unfold execLdVxK
  cases s.firstKeyDown with
  | some k => exact ⟨s.setReg x (BitVec.ofNat 8 k.val), rfl⟩
  | none => exact ⟨s.refetch, rfl⟩

/-- No instruction is refused: those that may fault end in `commit`, the key wait has two outcomes, and every other one
has a single next state. -/
theorem exec_total (i : Instr) (s : State) : ∃ t, exec i s = .next t := by
  cases i with
  | ret | call | drw | skp | sknp | ldBVx | ldMemVx | ldVxMem => exact s.commit_total _
  | ldVxK x => exact execLdVxK_total x s
  | _ => exact ⟨_, rfl⟩

end Sys2Proof.Machine

namespace Sys2Proof.Proofs
open Sys2Proof.Machine

/-- Settles O12, by the three things a step can do: nothing while a fault is latched, a faulting fetch, one instruction. -/
theorem stepIsTotal : Obligations.StepIsTotal := by
  intro s
  cases hs : s.status with
  | faulted c => exact ⟨s, step_faulted hs⟩
  | running =>
    cases hf : s.fetch with
    | error c => exact ⟨s.raise c, step_unfetched hs hf⟩
    | ok w => rw [step_fetched hs hf]; exact exec_total (decode w) s.advance

end Sys2Proof.Proofs
end

section
/-!
The access matrix (10_state.md R36, R22): one frame per update of the state, then what every instruction changes at
most.
-/

namespace Sys2Proof.Machine

/-! ### What each update changes -/

section
variable (s : State)

theorem frame_refl : Frame {} s s := by constructor <;> simp

theorem frame_setReg (x : Reg) (b : Byte) : Frame { regs := [x] } s (s.setReg x b) := by
  constructor <;> simp +contextual

theorem frame_maskInto (x : Reg) (b kk : Byte) :
    Frame { regs := [x], draws := true } s (s.countDraw.maskInto b x kk) := by
  constructor <;> simp +contextual

/-- The write order of R150 touches the flag register only when there is a flag to write. -/
theorem frame_writeFlagThenResult (flag : Option Bool) (x : Reg) (b : Byte) :
    Frame { regs := if flag.isSome then [x, vf] else [x] } s (s.writeFlagThenResult flag x b) := by
  cases flag <;> constructor <;> simp +contextual [State.reg_writeFlagThenResult]

theorem frame_loadRegs (x : Reg) {bytes : List Byte} (h : bytes.length = x.val + 1) :
    Frame { regs := regsThrough x } s (s.loadRegs bytes) := by
  have hregs : ∀ r, r ∉ regsThrough x → (s.loadRegs bytes).reg r = s.reg r := by
    intro r hr
    have hout : ¬ r.val < bytes.length := by simpa [regsThrough, h, Nat.lt_succ_iff] using hr
    rw [State.reg_loadRegs, if_neg hout]
  constructor <;> simp +contextual [hregs]

theorem frame_setI (w : Word) : Frame { i := true } s (s.setI w) := by constructor <;> simp

theorem frame_setDT (b : Byte) : Frame { dt := true } s (s.setDT b) := by constructor <;> simp

theorem frame_setST (b : Byte) : Frame { st := true } s (s.setST b) := by constructor <;> simp

theorem frame_setFb (fb : Display) : Frame { fb := true } s (s.setFb fb) := by constructor <;> simp

theorem frame_finishBlit (b : Blit) : Frame { regs := [vf], fb := true } s (s.finishBlit b) := by
  constructor <;> simp +contextual

theorem frame_jump (target : Word) : Frame { pc := true } s (s.jump target) := by constructor <;> simp

theorem frame_skipIf (c : Bool) : Frame { pc := true } s (s.skipIf c) := by constructor <;> simp

/-- A pop moves `sp` and `pc` and writes no slot (D31). -/
theorem frame_return (sp : Byte) (target : Word) :
    Frame { pc := true, sp := true } s { s with sp := sp, pc := target } := by
  constructor <;> simp [State.reg, State.byte]

theorem frame_call (stack : List Word) (sp : Byte) (target : Word) :
    Frame { pc := true, sp := true, stack := true } s { s with stack := stack, sp := sp, pc := target } := by
  constructor <;> simp [State.reg, State.byte]

theorem frame_writeBytes (base : Nat) {bytes : List Byte} {n : Nat} (h : bytes.length = n) :
    Frame { storeBase := base, storeLen := n } s (s.writeBytes base bytes) := by
  subst h
  constructor <;> simp +contextual [State.byte_writeBytes]

end

/-! ### What each instruction changes -/

/-- The access matrix allows `i` to go from `s` to `t`: only what the row of `i` names has changed, or only the latch, by a
cause of that row. -/
def Allows (i : Instr) (s t : State) : Prop :=
  Frame (i.touches s) s t ∨ ∃ c, i.mayRaise c = true ∧ t = s.raise c

/-- A cause of the row may be latched (R240). -/
theorem allows_raise {i : Instr} {c : Cause} (s : State) (h : i.mayRaise c = true) : Allows i s (s.raise c) :=
  .inr ⟨c, h, rfl⟩

theorem allows_addReg (x y : Reg) (s : State) :
    Allows (.addReg x y) s (s.writeFlagThenResult (if carries (s.reg x) (s.reg y) then some true else none) x
      (s.reg x + s.reg y)) := by
  left
  have h := frame_writeFlagThenResult s (if carries (s.reg x) (s.reg y) then some true else none) x (s.reg x + s.reg y)
  cases hc : carries (s.reg x) (s.reg y) <;> simpa [Instr.touches, hc] using h

/-- The key wait writes its register or goes back to its own address (R182). -/
theorem execLdVxK_allowed (x : Reg) (s : State) : ∃ t, exec (.ldVxK x) s = .next t ∧ Allows (.ldVxK x) s t := by
  simp only [exec, execLdVxK]
  cases s.firstKeyDown with
  | some k => exact ⟨_, rfl, .inl (by constructor <;> simp +contextual [Instr.touches])⟩
  | none => exact ⟨_, rfl, .inl (by constructor <;> simp [Instr.touches])⟩

/-- Every instruction answers a next state that its row of the access matrix allows. -/
theorem exec_allowed (i : Instr) (s : State) : ∃ t, exec i s = .next t ∧ Allows i s t := by
  cases i with
  | nop => exact ⟨_, rfl, .inl (frame_refl s)⟩
  | cls => exact ⟨_, rfl, .inl (frame_setFb s _)⟩
  | jp | jpV0 => exact ⟨_, rfl, .inl (frame_jump s _)⟩
  | seImm | sneImm | seReg | sneReg => exact ⟨_, rfl, .inl (frame_skipIf s _)⟩
  | ldImm | addImm | ldReg | or | and | xor | ldVxDT => exact ⟨_, rfl, .inl (frame_setReg s _ _)⟩
  | addReg x y => exact ⟨_, rfl, allows_addReg x y s⟩
  | sub | shr | subn | shl => exact ⟨_, rfl, .inl (frame_writeFlagThenResult s (some _) _ _)⟩
  | rnd x kk => exact ⟨_, rfl, .inl (frame_maskInto s x _ kk)⟩
  | ldI | addIVx | ldFVx => exact ⟨_, rfl, .inl (frame_setI s _)⟩
  | ldDTVx => exact ⟨_, rfl, .inl (frame_setDT s _)⟩
  | ldSTVx => exact ⟨_, rfl, .inl (frame_setST s _)⟩
  | ldVxK x => exact execLdVxK_allowed x s
  | ret =>
    refine ⟨_, execRet_eq s, ?_⟩
    split_ifs
    · exact allows_raise s rfl
    · exact .inl (frame_return s _ _)
  | call nnn =>
    refine ⟨_, execCall_eq nnn s, ?_⟩
    split_ifs
    · exact allows_raise s rfl
    · exact .inl (frame_call s _ _ _)
  | drw x y n =>
    refine ⟨_, execDrw_eq x y n s, ?_⟩
    split_ifs
    · exact .inl (frame_finishBlit s _)
    · exact allows_raise s rfl
  | skp x =>
    refine ⟨_, execSkp_eq x s, ?_⟩
    split_ifs
    · exact .inl (frame_skipIf s _)
    · exact allows_raise s rfl
  | sknp x =>
    refine ⟨_, execSknp_eq x s, ?_⟩
    split_ifs
    · exact .inl (frame_skipIf s _)
    · exact allows_raise s rfl
  | ldBVx x =>
    refine ⟨_, execLdBVx_eq x s, ?_⟩
    split_ifs
    · exact .inl (frame_writeBytes s _ rfl)
    · exact allows_raise s rfl
  | ldMemVx x =>
    refine ⟨_, execLdMemVx_eq x s, ?_⟩
    split_ifs
    · exact .inl (frame_writeBytes s _ (s.regsUpTo_length x))
    · exact allows_raise s rfl
  | ldVxMem x =>
    refine ⟨_, execLdVxMem_eq x s, ?_⟩
    split_ifs
    · exact .inl (frame_loadRegs s x (by simp))
    · exact allows_raise s rfl

theorem exec_allows {i : Instr} {s t : State} (h : exec i s = .next t) : Allows i s t := by
  obtain ⟨u, hu, ha⟩ := exec_allowed i s
  cases hu.symm.trans h
  exact ha

end Sys2Proof.Machine

namespace Sys2Proof.Proofs
open Sys2Proof.Machine

/-- Settles O15: each instruction's update has the frame of its row, and a failed check only latches a cause of the row. -/
theorem accessMatrix : Obligations.AccessMatrix := exec_allowed

end Sys2Proof.Proofs
end

section
/-!
What an instruction keeps, field by field, and what it makes of the few fields it writes: from the access matrix. Then the
steps that write keys and timers (10_state.md R29, R31, R37).
-/

namespace Sys2Proof.Machine

section
variable {i : Instr} {s t : State}

/-- A field that a fault keeps and the instruction's row keeps is kept. -/
theorem exec_keeps {α : Type} (field : State → α) (h : exec i s = .next t) (hraise : ∀ c, field (s.raise c) = field s)
    (hframe : Frame (i.touches s) s t → field t = field s) : field t = field s := by
  rcases exec_allows h with hf | ⟨c, -, rfl⟩
  · exact hframe hf
  · exact hraise c

theorem exec_keeps_keys (h : exec i s = .next t) : t.keys = s.keys := exec_keeps State.keys h (fun _ => rfl) (·.keys)

theorem exec_keeps_params (h : exec i s = .next t) : t.params = s.params :=
  exec_keeps State.params h (fun _ => rfl) (·.params)

theorem exec_keeps_pc (h : exec i s = .next t) (hpc : (i.touches s).pc = false) : t.pc = s.pc :=
  exec_keeps State.pc h (fun _ => rfl) (·.pc hpc)

theorem exec_keeps_sp (h : exec i s = .next t) (hsp : (i.touches s).sp = false) : t.sp = s.sp :=
  exec_keeps State.sp h (fun _ => rfl) (·.sp hsp)

theorem exec_keeps_stack (h : exec i s = .next t) (hst : (i.touches s).stack = false) : t.stack = s.stack :=
  exec_keeps State.stack h (fun _ => rfl) (·.stack hst)

theorem exec_keeps_dt (h : exec i s = .next t) (hdt : (i.touches s).dt = false) : t.dt = s.dt :=
  exec_keeps State.dt h (fun _ => rfl) (·.dt hdt)

theorem exec_keeps_st (h : exec i s = .next t) (hst : (i.touches s).st = false) : t.st = s.st :=
  exec_keeps State.st h (fun _ => rfl) (·.st hst)

theorem exec_keeps_fb (h : exec i s = .next t) (hfb : (i.touches s).fb = false) : t.fb = s.fb :=
  exec_keeps State.fb h (fun _ => rfl) (·.fb hfb)

/-! ### What becomes of the fields an instruction writes -/

/-- `DT` is written by `LD DT, Vx` only (R29). -/
theorem exec_dt (h : exec i s = .next t) : t.dt = s.dt ∨ ∃ x, i = .ldDTVx x ∧ t.dt = s.reg x := by
  cases hdt : (i.touches s).dt with
  | false => exact .inl (exec_keeps_dt h hdt)
  | true =>
    cases i with
    | ldDTVx x => cases h; exact .inr ⟨x, rfl, rfl⟩
    | _ => cases hdt

/-- `ST` is written by `LD ST, Vx` only (R29). -/
theorem exec_st (h : exec i s = .next t) : t.st = s.st ∨ ∃ x, i = .ldSTVx x ∧ t.st = s.reg x := by
  cases hst : (i.touches s).st with
  | false => exact .inl (exec_keeps_st h hst)
  | true =>
    cases i with
    | ldSTVx x => cases h; exact .inr ⟨x, rfl, rfl⟩
    | _ => cases hst

/-- `sp` counts one entry less after `RET`, one more after a `CALL` that found room (R27). -/
theorem exec_sp (h : exec i s = .next t) :
    t.sp = s.sp ∨ (s.sp ≠ 0 ∧ t.sp = s.sp - 1) ∨ (s.sp.toNat ≠ s.params.stackDepth ∧ t.sp = s.sp + 1) := by
  cases hsp : (i.touches s).sp with
  | false => exact .inl (exec_keeps_sp h hsp)
  | true =>
    cases i with
    | ret =>
      cases (execRet_eq s).symm.trans h
      split_ifs with hz
      · exact .inl rfl
      · exact .inr (.inl ⟨hz, rfl⟩)
    | call nnn =>
      cases (execCall_eq nnn s).symm.trans h
      split_ifs with hfull
      · exact .inl rfl
      · exact .inr (.inr ⟨hfull, rfl⟩)
    | _ => cases hsp

/-- `CALL` alone writes a slot, with the incremented `pc` (R122). -/
theorem exec_stack (h : exec i s = .next t) : t.stack = s.stack ∨ t.stack = s.stack.set s.sp.toNat s.pc := by
  cases hst : (i.touches s).stack with
  | false => exact .inl (exec_keeps_stack h hst)
  | true =>
    cases i with
    | call nnn =>
      cases (execCall_eq nnn s).symm.trans h
      split_ifs
      · exact .inl rfl
      · exact .inr rfl
    | _ => cases hst

/-- The display is kept, cleared (R171) or drawn on (R172). -/
theorem exec_fb (h : exec i s = .next t) :
    t.fb = s.fb ∨ t.fb = blankDisplay s.params ∨ ∃ x0 y0 rows, t.fb = (blit s.params x0 y0 rows s.fb).fb := by
  cases hfb : (i.touches s).fb with
  | false => exact .inl (exec_keeps_fb h hfb)
  | true =>
    cases i with
    | cls => cases h; exact .inr (.inl rfl)
    | drw x y n =>
      cases (execDrw_eq x y n s).symm.trans h
      split_ifs
      · exact .inr (.inr ⟨_, _, _, rfl⟩)
      · exact .inl rfl
    | _ => cases hfb

/-- Memory is written by the two stores only, at `I` and inside memory (R195, R196). -/
theorem exec_mem (h : exec i s = .next t) :
    t.mem = s.mem ∨ ∃ bytes : List Byte, s.i.toNat + bytes.length ≤ s.params.memSize ∧
      t.mem = (s.writeBytes s.i.toNat bytes).mem := by
  cases i with
  | ldBVx x =>
    cases (execLdBVx_eq x s).symm.trans h
    split_ifs with hin
    · exact .inr ⟨decimalDigits (s.reg x), hin, rfl⟩
    · exact .inl rfl
  | ldMemVx x =>
    cases (execLdMemVx_eq x s).symm.trans h
    split_ifs with hin
    · exact .inr ⟨_, (s.regsUpTo_length x).symm ▸ hin, rfl⟩
    · exact .inl rfl
  | ret | call | drw | skp | sknp | ldVxMem =>
    simp only [exec, execRet_eq, execCall_eq, execDrw_eq, execSkp_eq, execSknp_eq, execLdVxMem_eq] at h
    cases h
    left
    split_ifs <;> simp
  | ldVxK x =>
    simp only [exec, execLdVxK] at h
    split at h <;> cases h <;> exact .inl rfl
  | _ => cases h; left; simp

end

end Sys2Proof.Machine

namespace Sys2Proof.Proofs
open Sys2Proof.Machine

/-- Settles O16: a latched or latching step writes no such field, and an instruction only by `exec_dt` and `exec_st`. -/
theorem stepLeavesKeysAndTimers : Obligations.StepLeavesKeysAndTimers := by
  intro s t h
  rcases step_cases h with ⟨c, -, rfl⟩ | ⟨c, -, -, rfl⟩ | ⟨w, -, hf, he⟩
  · exact ⟨rfl, rfl, .inl rfl, .inl rfl⟩
  · exact ⟨rfl, rfl, .inl rfl, .inl rfl⟩
  · refine ⟨exec_keeps_keys (s := s.advance) he, exec_keeps_params (s := s.advance) he, (exec_dt he).imp_right ?_,
      (exec_st he).imp_right ?_⟩
    · rintro ⟨x, hi, hx⟩
      exact ⟨w, x, hf, hi, hx⟩
    · rintro ⟨x, hi, hx⟩
      exact ⟨w, x, hf, hi, hx⟩

end Sys2Proof.Proofs
end

section
/-!
The invariants (10_state.md R20, R27, R32): every update an instruction makes keeps them, so every step does; and they hold
after reset (R35).
-/

namespace Sys2Proof.Machine

/-! ### What an instruction and a step keep -/

/-- The latch and `pc` are not what the invariants speak of. -/
theorem State.Inv.raise {s : State} (hs : s.Inv) (c : Cause) : (s.raise c).Inv :=
  ⟨hs.params, hs.memory, hs.spBound, hs.stackSize, hs.rows, hs.columns⟩

theorem State.Inv.advance {s : State} (hs : s.Inv) : s.advance.Inv :=
  ⟨hs.params, hs.memory, hs.spBound, hs.stackSize, hs.rows, hs.columns⟩

theorem blit_shape {fb : Display} {h w : Nat} (hs : fb.HasShape h w) (p : Params) (x0 y0 : Nat) (rows : List Byte) :
    (blit p x0 y0 rows fb).fb.HasShape h w := by
  rw [blit, blitRows_eq_hits]
  exact Blit.hits_shape (b := ⟨fb, false⟩) hs _

section
variable {i : Instr} {s t : State}

theorem exec_keeps_wf (hs : s.Inv) (h : exec i s = .next t) : Memory.wf s.params t.mem := by
  rcases exec_mem h with hm | ⟨bytes, hin, hm⟩
  · exact hm ▸ hs.memory
  · exact hm ▸ State.wf_writeBytes hs.memory hin

/-- `sp` never leaves `0 .. STACK_DEPTH` (R27): a pop needs an entry, a push needs room. -/
theorem exec_keeps_spBound (hs : s.Inv) (h : exec i s = .next t) : t.sp.toNat ≤ s.params.stackDepth := by
  have hb := hs.spBound
  have ⟨_, _, _, _, hdepth, _⟩ := Params.bounds hs.params
  rcases exec_sp h with hsp | ⟨hne, hsp⟩ | ⟨hroom, hsp⟩
  · rwa [hsp]
  · rw [hsp, Byte.toNat_pred hne]
    omega
  · rw [hsp, Byte.toNat_succ (by omega)]
    omega

theorem exec_keeps_stackSize (hs : s.Inv) (h : exec i s = .next t) : t.stack.length = s.params.stackDepth := by
  rcases exec_stack h with hst | hst
  · rw [hst, hs.stackSize]
  · rw [hst, List.length_set, hs.stackSize]

theorem exec_keeps_shape (hs : s.Inv) (h : exec i s = .next t) :
    t.fb.HasShape s.params.displayH s.params.displayW := by
  have hshape : s.fb.HasShape s.params.displayH s.params.displayW := ⟨hs.rows, hs.columns⟩
  rcases exec_fb h with hfb | hfb | ⟨x0, y0, rows, hfb⟩
  · exact hfb ▸ hshape
  · exact hfb ▸ Display.blank_shape s.params
  · exact hfb ▸ blit_shape hshape s.params x0 y0 rows

theorem exec_keeps_inv (hs : s.Inv) (h : exec i s = .next t) : t.Inv := by
  have hp : t.params = s.params := exec_keeps_params h
  obtain ⟨hrows, hcols⟩ := exec_keeps_shape hs h
  constructor <;> rw [hp]
  · exact hs.params
  · exact exec_keeps_wf hs h
  · exact exec_keeps_spBound hs h
  · exact exec_keeps_stackSize hs h
  · exact hrows
  · exact hcols

theorem step_keeps_inv (hs : s.Inv) (h : step s = .next t) : t.Inv := by
  rcases step_cases h with ⟨c, -, rfl⟩ | ⟨c, -, -, rfl⟩ | ⟨w, -, -, he⟩
  · exact hs
  · exact hs.raise c
  · exact exec_keeps_inv hs.advance he

end

/-! ### The bounds of R26 and R120 -/

theorem toNat_add_two {w : Word} (h : w.toNat < 65534) : (w + 2).toNat = w.toNat + 2 := by bv_omega

theorem toNat_sub_two {w : Word} (h : 2 ≤ w.toNat) : (w - 2).toNat = w.toNat - 2 := by bv_omega

/-- Every value an instruction can give `pc`, from the incremented one. -/
inductive PcMove (s : State) : Word → Prop
  | stay : PcMove s s.pc
  | skip : PcMove s (s.pc + 2)
  | refetch : PcMove s (s.pc - 2)
  | jump (nnn : Addr) : PcMove s (addrWord nnn)
  | indexed (nnn : Addr) (v0 : Byte) : PcMove s (indexedTarget s.params.jpV0Accumulate s.pc nnn v0)
  | pop (k : Nat) : PcMove s (s.stack.getD k 0)

theorem pcMove_skipIf (s : State) (c : Bool) : PcMove s (s.skipIf c).pc := by
  cases c
  · exact .stay
  · exact .skip

theorem exec_pc {i : Instr} {s t : State} (h : exec i s = .next t) : PcMove s t.pc := by
  cases hpc : (i.touches s).pc with
  | false => rw [exec_keeps_pc h hpc]; exact .stay
  | true =>
    cases i with
    | jp nnn => cases h; exact .jump nnn
    | jpV0 nnn => cases h; exact .indexed nnn _
    | seImm | sneImm | seReg | sneReg => cases h; exact pcMove_skipIf s _
    | ret =>
      cases (execRet_eq s).symm.trans h
      split_ifs
      · exact .stay
      · exact .pop _
    | call nnn =>
      cases (execCall_eq nnn s).symm.trans h
      split_ifs
      · exact .stay
      · exact .jump nnn
    | skp x =>
      cases (execSkp_eq x s).symm.trans h
      split_ifs
      · exact pcMove_skipIf s _
      · exact .stay
    | sknp x =>
      cases (execSknp_eq x s).symm.trans h
      split_ifs
      · exact pcMove_skipIf s _
      · exact .stay
    | ldVxK x =>
      simp only [exec, execLdVxK] at h
      split at h <;> cases h
      · exact .stay
      · exact .refetch
    | _ => cases hpc

theorem pcLimit_ge (p : Params) : 4350 ≤ pcLimit p := by
  unfold pcLimit
  split_ifs <;> omega

/-- The indexed jump is what `pcLimit` is made for (R26). -/
theorem indexedTarget_le (p : Params) {pc : Word} (h : pc.toNat ≤ 4096) (nnn : Addr) (v0 : Byte) :
    (indexedTarget p.jpV0Accumulate pc nnn v0).toNat ≤ pcLimit p := by
  have hn := nnn.isLt
  have hv := v0.isLt
  unfold indexedTarget pcLimit
  split_ifs <;> simp only [BitVec.toNat_add, addrWord_toNat, byteWord_toNat] <;> omega

/-- A state that executes an instruction: `pc` is incremented from inside memory, return addresses are at most `MEM_SIZE`. -/
structure State.Executing (s : State) : Prop where
  memSize : s.params.memSize ≤ 4096
  pcLow : 2 ≤ s.pc.toNat
  pcHigh : s.pc.toNat ≤ s.params.memSize
  returns : ∀ a ∈ s.stack, a.toNat ≤ s.params.memSize

theorem fetch_ok_inMemory {s : State} {w : Word} (h : s.fetch = .ok w) : s.pc.toNat + 1 < s.params.memSize := by
  rw [State.fetch_eq] at h
  split_ifs at h with hin
  exact hin

/-- After a good fetch the increment does not wrap (R26). -/
theorem State.executing_advance {s : State} {w : Word} (hs : s.Inv) (hpc : s.PcInv) (hf : s.fetch = .ok w) :
    s.advance.Executing := by
  have hin := fetch_ok_inMemory hf
  have hmem := (Params.bounds hs.params).1
  have hadv : s.advance.pc.toNat = s.pc.toNat + 2 := toNat_add_two (by omega)
  exact ⟨hmem, by omega, by rw [hadv, State.advance_params]; omega, hpc.returns⟩

theorem PcMove.bounded {s : State} {target : Word} (hs : s.Executing) (h : PcMove s target) :
    target.toNat ≤ pcLimit s.params := by
  obtain ⟨hmem, hlow, hhigh, hret⟩ := hs
  have hlim := pcLimit_ge s.params
  cases h with
  | stay => omega
  | skip => rw [toNat_add_two (by omega)]; omega
  | refetch => rw [toNat_sub_two hlow]; omega
  | jump nnn =>
    have := nnn.isLt
    rw [addrWord_toNat]
    omega
  | indexed nnn v0 => exact indexedTarget_le s.params (by omega) nnn v0
  | pop k =>
    rw [List.getD_eq_getElem?_getD]
    cases hk : s.stack[k]? with
    | none => simp
    | some a => exact (hret a (List.mem_of_getElem? hk)).trans (by omega)

theorem exec_keeps_pcInv {i : Instr} {s t : State} (hs : s.Executing) (h : exec i s = .next t) : t.PcInv := by
  have hp : t.params = s.params := exec_keeps_params h
  constructor <;> rw [hp]
  · exact (exec_pc h).bounded hs
  · intro a ha
    rcases exec_stack h with hst | hst <;> rw [hst] at ha
    · exact hs.returns a ha
    · rcases List.mem_or_eq_of_mem_set ha with ha | rfl
      · exact hs.returns a ha
      · exact hs.pcHigh

theorem step_keeps_pcInv {s t : State} (hs : s.Inv) (hpc : s.PcInv) (h : step s = .next t) : t.PcInv := by
  rcases step_cases h with ⟨c, -, rfl⟩ | ⟨c, -, -, rfl⟩ | ⟨w, -, hf, he⟩
  · exact hpc
  · exact ⟨hpc.pc, hpc.returns⟩
  · exact exec_keeps_pcInv (State.executing_advance hs hpc hf) he

end Sys2Proof.Machine

namespace Sys2Proof.Proofs
open Sys2Proof.Machine

/-- Settles O18, from what an instruction makes of memory, `sp`, the stack and the display. -/
theorem stepKeepsInvariants : Obligations.StepKeepsInvariants := fun _ _ hs h => step_keeps_inv hs h

/-- Settles O21: a good fetch increments `pc` to between 2 and `MEM_SIZE`, and every move from there stays within the limit. -/
theorem stepKeepsPcBound : Obligations.StepKeepsPcBound := fun _ _ hs hpc h => step_keeps_pcInv hs hpc h

end Sys2Proof.Proofs
end

section
/-!
The state after reset (10_state.md R35, 48_host_operations.md R201) meets the invariants and reads as the spec says.
-/

namespace Sys2Proof.Machine

section
variable {p : Params}

theorem resetOf_inv (hp : p.wellFormed = true) : (State.resetOf p).Inv where
  params := hp
  memory := Memory.wf_nil p
  spBound := Nat.zero_le _
  stackSize := List.length_replicate
  rows := (Display.blank_shape p).1
  columns := (Display.blank_shape p).2

/-- `LOAD_OFFSET` lies inside memory, so `pc` holds it unwrapped (R35, D5). -/
theorem resetPc_toNat (hp : p.wellFormed = true) : p.resetPc.toNat = p.loadOffset := by
  obtain ⟨hmem, hload, _⟩ := Params.bounds hp
  exact Nat.mod_eq_of_lt (by omega)

theorem resetOf_pcInv (hp : p.wellFormed = true) : (State.resetOf p).PcInv where
  pc := by
    obtain ⟨hmem, hload, _⟩ := Params.bounds hp
    have hpc : (State.resetOf p).pc.toNat = p.loadOffset := resetPc_toNat hp
    have hlim : 4350 ≤ pcLimit (State.resetOf p).params := pcLimit_ge p
    omega
  returns a ha := by
    rw [List.eq_of_mem_replicate ha]
    exact Nat.zero_le _

end

/-! ### What reset leaves in memory -/

/-- With no byte listed, an address reads as the glyph byte there, if any, else as 0 (R35, R76). -/
theorem resetOf_byte (p : Params) (a : Nat) : (State.resetOf p).byte a = p.glyphTable.getD a 0 := rfl

theorem resetOf_byte_glyph {p : Params} {a : Nat} (h : a < p.glyphTable.length) :
    p.glyphTable[a]? = some ((State.resetOf p).byte a) := by
  rw [resetOf_byte, List.getD_eq_getElem?_getD, List.getElem?_eq_getElem h, Option.getD_some]

theorem resetOf_byte_zero {p : Params} {a : Nat} (h : p.glyphTable.length ≤ a) : (State.resetOf p).byte a = 0 := by
  rw [resetOf_byte, List.getD_eq_default _ _ h]

theorem resetOf_reg (p : Params) (r : Reg) : (State.resetOf p).reg r = 0 := Vector.getElem_replicate _

theorem resetOf_key (p : Params) (k : Reg) : (State.resetOf p).keys[k.val] = false := Vector.getElem_replicate _

theorem resetOf_slot {p : Params} {j : Nat} (h : j < p.stackDepth) : (State.resetOf p).stack[j]? = some 0 :=
  List.getElem?_replicate_of_lt h

end Sys2Proof.Machine

namespace Sys2Proof.Proofs
open Sys2Proof.Machine

/-- Settles O19: what holds at all legal parameters holds at the defaults. -/
theorem resetHasInvariants : Obligations.ResetHasInvariants :=
  ⟨resetOf_inv (by decide), resetOf_pcInv (by decide), fun _ hp => ⟨resetOf_inv hp, resetOf_pcInv hp⟩⟩

/-- Settles O55: RESET is `resetOf` of the machine's parameters in every field but the count of draws. -/
theorem resetState : Obligations.ResetState := by
  intro s hp
  have hg : s.params.glyphTable.length = 80 := by
    obtain ⟨_, _, _, _, _, _, _, _, hg⟩ := Params.bounds hp
    exact hg
  exact ⟨resetOf_reg s.params, rfl, resetPc_toNat hp, rfl, fun _ => resetOf_slot, List.length_replicate, rfl, rfl,
    Display.blank_cell s.params, resetOf_key s.params, fun _ ha => resetOf_byte_glyph (hg ▸ ha),
    fun _ ha => resetOf_byte_zero (hg ▸ ha), rfl, rfl, rfl⟩

/-- Settles O9: the fetched word is the big-endian word at `pc`, and the increment is `advance`. -/
theorem stepRunsDecodedInstruction : Obligations.StepRunsDecodedInstruction := by
  intro s w hrun hin hw
  have hword : w = wordOfBytes (s.byte s.pc.toNat) (s.byte (s.pc.toNat + 1)) := by
    apply BitVec.eq_of_toNat_eq
    rw [hw, wordOfBytes_toNat]
  have hfetch : s.fetch = .ok w := by rw [State.fetch_eq, if_pos hin, hword]
  exact step_fetched hrun hfetch

end Sys2Proof.Proofs
end

section
/-!
The call stack is last in, first out (10_state.md R28): pops undo pushes from the last one on.
-/

namespace Sys2Proof.Machine

/-- Pops may be counted from the end: `n` of them, then one more. -/
theorem State.popN_succ_of_pop {s u v : State} {l : List Word} {a : Word} {n : Nat} (hn : s.popN n = .ok (l, u))
    (hpop : u.pop = .ok (a, v)) : s.popN (n + 1) = .ok (l ++ [a], v) := by
  induction n generalizing s l with
  | zero =>
    cases hn
    simp [State.popN, hpop]
  | succ n ih =>
    rw [State.popN] at hn ⊢
    cases hs : s.pop with
    | error c => simp [hs] at hn
    | ok r =>
      obtain ⟨b, t⟩ := r
      cases ht : t.popN n with
      | error c => simp [hs, ht] at hn
      | ok q =>
        simp only [hs, ht] at hn
        cases hn
        simp [ih ht]

/-- The pop right above `s`'s entries reads the slot that `s.sp` counts to, and gives `s` back but for the slots. -/
theorem State.pop_above {s : State} {stack : List Word} {a : Word} (hsp : s.sp.toNat < 255)
    (hslot : stack[s.sp.toNat]? = some a) :
    State.pop { s with stack := stack, sp := s.sp + 1 } = .ok (a, { s with stack := stack }) := by
  have hne : s.sp + 1 ≠ 0 := by bv_omega
  have hback : s.sp + 1 - 1 = s.sp := by bv_omega
  rw [State.pop_held hne]
  simp only [hback, List.getD_eq_getElem?_getD, hslot, Option.getD_some]

/-- Values that fit are pushed, their pops give them back in reverse and restore all but the slots, and the slots below
`sp` are untouched: what makes the next pop read the entry below (R28, D31). -/
theorem State.popN_pushAll (values : List Word) (s : State) (hsize : s.stack.length = s.params.stackDepth)
    (hdepth : s.params.stackDepth ≤ 255) (hfit : s.sp.toNat + values.length ≤ s.params.stackDepth) :
    ∃ t, s.pushAll values = .ok t ∧ t.popN values.length = .ok (values.reverse, { s with stack := t.stack }) ∧
      ∀ j < s.sp.toNat, t.stack[j]? = s.stack[j]? := by
  induction values generalizing s with
  | nil => exact ⟨s, rfl, rfl, fun _ _ => rfl⟩
  | cons a rest ih =>
    rw [List.length_cons] at hfit
    have hroom : s.sp.toNat ≠ s.params.stackDepth := by omega
    have hsp : (s.sp + 1).toNat = s.sp.toNat + 1 := Byte.toNat_succ (by omega)
    obtain ⟨t, hpush, hpops, hbelow⟩ := ih { s with stack := s.stack.set s.sp.toNat a, sp := s.sp + 1 }
      (by simpa using hsize) hdepth (show (s.sp + 1).toNat + rest.length ≤ s.params.stackDepth by omega)
    have hslot : t.stack[s.sp.toNat]? = some a := by
      rw [hbelow _ (by rw [hsp]; omega)]
      simp only [List.getElem?_set_self (show s.sp.toNat < s.stack.length by omega)]
    refine ⟨t, ?_, ?_, fun j hj => ?_⟩
    · rw [State.pushAll, State.push_room a hroom]
      exact hpush
    · rw [List.length_cons, List.reverse_cons]
      exact State.popN_succ_of_pop hpops (State.pop_above (by omega) hslot)
    · rw [hbelow j (by rw [hsp]; omega)]
      exact List.getElem?_set_ne (by omega)

end Sys2Proof.Machine

namespace Sys2Proof.Proofs
open Sys2Proof.Machine

/-- Settles O27, by `State.popN_pushAll`: the state after the pops is the first one but for the stack's slots. -/
theorem stackIsLifo : Obligations.StackIsLifo := by
  intro s values hs hfit
  obtain ⟨_, _, _, _, hdepth, _⟩ := Params.bounds hs.params
  obtain ⟨t, hpush, hpops, _⟩ := State.popN_pushAll values s hs.stackSize hdepth hfit
  exact ⟨t, _, hpush, hpops, rfl⟩

end Sys2Proof.Proofs
end

section
/-!
Memory (20_memory.md): what a checked access answers inside and outside memory, and that the fetch reads what was stored.
-/

namespace Sys2Proof.Machine

/-! ### Checked accesses -/

theorem State.storeBytes_inMemory {s : State} {base : Nat} {bytes : List Byte}
    (h : base + bytes.length ≤ s.params.memSize) : s.storeBytes base bytes = .ok (s.writeBytes base bytes) := by
  rw [State.storeBytes_eq, if_pos (.inr h)]

/-- A store that is accepted has written its bytes, all of them inside memory. -/
theorem State.storeBytes_ok {s t : State} {base : Nat} {bytes : List Byte} (hne : bytes.length ≠ 0)
    (h : s.storeBytes base bytes = .ok t) : base + bytes.length ≤ s.params.memSize ∧ t = s.writeBytes base bytes := by
  rw [State.storeBytes_eq] at h
  split_ifs at h with hin
  exact ⟨hin.resolve_left hne, (Except.ok.inj h).symm⟩

theorem State.storeBytes_outside {s : State} {base : Nat} {bytes : List Byte} (hne : bytes.length ≠ 0)
    (h : s.params.memSize ≤ base) : s.storeBytes base bytes = .error (.memoryOutOfBounds base) := by
  rw [State.storeBytes_eq, if_neg (by omega), Nat.max_eq_left h]

theorem State.memRead1_inMemory {s : State} {a : Nat} (h : a < s.params.memSize) : s.memRead1 a = .ok (s.byte a) :=
  if_neg (by omega)

theorem State.memRead1_outside {s : State} {a : Nat} (h : s.params.memSize ≤ a) :
    s.memRead1 a = .error (.memoryOutOfBounds a) := if_pos h

/-! ### The fetch -/

/-- A fetch that leaves memory latches the lowest address out of range, and `pc` is not incremented (R203, D23). -/
theorem step_outside {s : State} (hrun : s.status = .running) (h : s.params.memSize ≤ s.pc.toNat + 1) :
    step s = .next (s.raise (.memoryOutOfBounds (max s.pc.toNat s.params.memSize))) :=
  step_unfetched hrun (by rw [State.fetch_eq, if_neg (by omega)])

/-- A word's two bytes, high one first, make the word again (R66). -/
theorem wordOfBytes_extractLsb (w : Word) : wordOfBytes (w.extractLsb 15 8) (w.extractLsb 7 0) = w := by
  apply BitVec.eq_of_toNat_eq
  have hw := w.isLt
  simp only [wordOfBytes_toNat, BitVec.extractLsb_toNat, Nat.shiftRight_eq_div_pow]
  omega

/-- The fetch reads the memory that a store at `pc` has left (R71). -/
theorem State.fetch_writeBytes_bytesOfWord {s : State} (w : Word) (h : s.pc.toNat + 1 < s.params.memSize) :
    (s.writeBytes s.pc.toNat (bytesOfWord w)).fetch = .ok w := by
  have hhi : (s.writeBytes s.pc.toNat (bytesOfWord w)).byte s.pc.toNat = w.extractLsb 15 8 := by
    simp [State.byte_writeBytes, bytesOfWord]
  have hlo : (s.writeBytes s.pc.toNat (bytesOfWord w)).byte (s.pc.toNat + 1) = w.extractLsb 7 0 := by
    simp [State.byte_writeBytes, bytesOfWord]
  rw [State.fetch_eq, State.writeBytes_pc, State.writeBytes_params, if_pos h, hhi, hlo, wordOfBytes_extractLsb]

end Sys2Proof.Machine

namespace Sys2Proof.Proofs
open Sys2Proof.Machine

/-- Settles O10: the lowest address out of range is `pc` when `pc` is outside, else `MEM_SIZE`. -/
theorem fetchOutOfRangeFaults : Obligations.FetchOutOfRangeFaults := by
  intro s hrun
  constructor
  · intro hpc
    rw [step_outside hrun (by omega), Nat.max_eq_left hpc]
    rfl
  · intro hlast
    rw [step_outside hrun (by omega), Nat.max_eq_right (by omega)]
    rfl

/-- Settles O11: the accepted store wrote both bytes at `pc`, and the fetch reads them back as `w`. -/
theorem storedWordIsFetched : Obligations.StoredWordIsFetched := by
  intro s t w hrun hstore
  obtain ⟨hin, rfl⟩ := State.storeBytes_ok (bytes := bytesOfWord w) (Nat.succ_ne_zero 1) hstore
  have hfetch := s.fetch_writeBytes_bytesOfWord w hin
  rw [step_fetched (by rw [State.writeBytes_status, hrun]) hfetch, State.advance, State.writeBytes_pc]

/-- Settles O22: a store of one byte is `setByte`, which changes what its own address reads as and no other. -/
theorem byteStoreAndLoad : Obligations.ByteStoreAndLoad := by
  intro s a b
  constructor
  · intro hin
    refine ⟨s.setByte a b, State.storeBytes_inMemory hin, ?_, fun r hr => ?_, rfl⟩
    · rw [State.memRead1_inMemory (s := s.setByte a b) hin, State.byte_setByte, if_pos rfl]
    · rw [State.byte_setByte, if_neg hr]
  · intro hout
    exact ⟨State.storeBytes_outside Nat.one_ne_zero hout, State.memRead1_outside hout⟩

end Sys2Proof.Proofs
end

section
/-!
Decoding is total and loses no bit (30_encoding.md R91 to R98, R104): the decoder reads every word as a well-formed
instruction whose word it is.
-/

namespace Sys2Proof

/-! ### A word from its fixed fields -/

section
variable {w : Word}

theorem wordNNN_of_op {op : Nibble} (hop : (fieldOp w).toNat = op.toNat) : wordNNN op (fieldNNN w) = w := by
  rw [← BitVec.eq_of_toNat_eq hop, wordNNN_fields]

theorem wordXKK_of_op {op : Nibble} (hop : (fieldOp w).toNat = op.toNat) : wordXKK op (fieldX w) (fieldKK w) = w := by
  rw [← BitVec.eq_of_toNat_eq hop, wordXKK_fields]

theorem wordXYN_of_op {op : Nibble} (hop : (fieldOp w).toNat = op.toNat) :
    wordXYN op (fieldX w) (fieldY w) (fieldN w) = w := by
  rw [← BitVec.eq_of_toNat_eq hop, wordXYN_fields]

theorem wordXKK_of_selector {op : Nibble} {kk : Byte} (hop : (fieldOp w).toNat = op.toNat)
    (hkk : (fieldKK w).toNat = kk.toNat) : wordXKK op (fieldX w) kk = w := by
  rw [← BitVec.eq_of_toNat_eq hkk, wordXKK_of_op hop]

theorem wordXYN_of_selector {op n : Nibble} (hop : (fieldOp w).toNat = op.toNat)
    (hn : (fieldN w).toNat = n.toNat) : wordXYN op (fieldX w) (fieldY w) n = w := by
  rw [← BitVec.eq_of_toNat_eq hn, wordXYN_of_op hop]

end

/-! ### Every word is the word of what it decodes to -/

/-- `i` is a faithful reading of `w`: well-formed, and no bit of `w` is lost. -/
def Reads (w : Word) (i : Instr) : Prop := i.wellFormed = true ∧ encode i = w

section
variable {w : Word}

theorem reads_nop (h : unassigned w = true) : Reads w (.nop w) := ⟨h, rfl⟩

theorem decodeFamily0_reads (hop : (fieldOp w).toNat = 0x0) : Reads w (decodeFamily0 w) := by
  unfold decodeFamily0
  split_ifs with hcls hret
  · exact ⟨rfl, hcls.symm⟩
  · exact ⟨rfl, hret.symm⟩
  · apply reads_nop
    rw [fieldOp_toNat] at hop
    rw [unassigned_iff]
    exact .inl ⟨hop, fun h => hcls (BitVec.eq_of_toNat_eq h), fun h => hret (BitVec.eq_of_toNat_eq h)⟩

theorem decodeFamily8_reads (hop : (fieldOp w).toNat = 0x8) : Reads w (decodeFamily8 w) := by
  fun_cases decodeFamily8 w with
  | case10 =>
    apply reads_nop
    simp only [fieldOp_toNat, fieldN_toNat, imp_false] at *
    rw [unassigned_iff]
    omega
  | _ hn => exact ⟨rfl, wordXYN_of_selector hop hn⟩

theorem decodeFamilyE_reads (hop : (fieldOp w).toNat = 0xE) : Reads w (decodeFamilyE w) := by
  fun_cases decodeFamilyE w with
  | case3 =>
    apply reads_nop
    simp only [fieldOp_toNat, fieldKK_toNat, imp_false] at *
    rw [unassigned_iff]
    omega
  | _ hkk => exact ⟨rfl, wordXKK_of_selector hop hkk⟩

theorem decodeFamilyF_reads (hop : (fieldOp w).toNat = 0xF) : Reads w (decodeFamilyF w) := by
  fun_cases decodeFamilyF w with
  | case10 =>
    apply reads_nop
    simp only [fieldOp_toNat, fieldKK_toNat, imp_false] at *
    rw [unassigned_iff]
    simp only [List.forall_mem_cons, List.not_mem_nil, false_imp_iff, implies_true, and_true]
    omega
  | _ hkk => exact ⟨rfl, wordXKK_of_selector hop hkk⟩

end

/-- Every word is read faithfully: a family that tells its members apart further answers for itself, the others by their
format (R94, R104). Case `k + 1` is family `k`. -/
theorem decode_reads (w : Word) : Reads w (decode w) := by
  fun_cases decode w with
  | case1 hop => exact decodeFamily0_reads hop
  | case9 hop => exact decodeFamily8_reads hop
  | case15 hop => exact decodeFamilyE_reads hop
  | case16 =>
    apply decodeFamilyF_reads
    have hop := (fieldOp w).isLt
    simp only [imp_false] at *
    omega
  | case2 hop | case3 hop | case11 hop | case12 hop => exact ⟨rfl, wordNNN_of_op hop⟩
  | case6 hop | case10 hop | case14 hop => exact ⟨rfl, wordXYN_of_op hop⟩
  | _ hop => exact ⟨rfl, wordXKK_of_op hop⟩

end Sys2Proof

namespace Sys2Proof.Proofs

/-- Settles O2, family by family: each reading puts the fields of the word back where they were. -/
theorem encodeDecodeRoundTrip : Obligations.EncodeDecodeRoundTrip := decode_reads

/-- Settles O7: each field as a quotient and a remainder of the word. -/
theorem fieldsAreTheWordsDigits : Obligations.FieldsAreTheWordsDigits := by
  intro w
  rw [fieldOp_toNat, fieldX_val, fieldY_val, fieldN_toNat, fieldKK_toNat, fieldNNN_toNat]
  omega

/-- Settles O6: the decoder evaluated on each word. -/
theorem sampleWordsDecode : Obligations.SampleWordsDecode := by
  unfold Obligations.SampleWordsDecode
  decide

end Sys2Proof.Proofs
end

section
/-!
The decoder and the opcode table (30_encoding.md R94 to R98, R104, R105): no word matches two rows, a word is read as the
row that matches it, and as a no-op when none does; so an encoded instruction decodes to itself.
-/

namespace Sys2Proof

/-! ### The opcode table -/

/-- The fixed bits of two rows agree wherever both rows fix them. -/
def OpcodeRow.overlaps (r r' : OpcodeRow) : Bool := r.pattern &&& r'.mask == r'.pattern &&& r.mask

theorem OpcodeRow.overlaps_of_hits {r r' : OpcodeRow} {w : Word} (h : r.hits w = true) (h' : r'.hits w = true) :
    r.overlaps r' = true := by
  rw [OpcodeRow.hits, beq_iff_eq] at h h'
  rw [OpcodeRow.overlaps, beq_iff_eq, ← h, ← h', BitVec.and_assoc, BitVec.and_assoc, BitVec.and_comm r.mask]

theorem opcodeTable_overlaps : ∀ r ∈ opcodeTable, ∀ r' ∈ opcodeTable, r.overlaps r' = true → r = r' := by decide

theorem opcodeTable_disjoint {w : Word} {r r' : OpcodeRow} (hr : r ∈ opcodeTable) (hr' : r' ∈ opcodeTable)
    (h : r.hits w = true) (h' : r'.hits w = true) : r = r' :=
  opcodeTable_overlaps r hr r' hr' (OpcodeRow.overlaps_of_hits h h')

/-- No row matches an unassigned word: one case per family with gaps (R100), where the rows fix the nibble, byte or word that
the list of R100 reads. -/
theorem not_hits_of_unassigned {w : Word} (hw : unassigned w = true) : ∀ r ∈ opcodeTable, ¬ r.hits w = true := by
  rw [unassigned_iff] at hw
  simp only [opcodeTable, opcodeTableLow, opcodeTableAlu, opcodeTableHigh, opcodeTableMisc, List.forall_mem_append,
    List.forall_mem_cons, List.not_mem_nil, false_imp_iff, implies_true, and_true, hits_F000, hits_F00F, hits_F0FF,
    hits_FFFF, BitVec.toNat_eq, BitVec.reduceToNat] at hw ⊢
  rcases hw with h0 | h8 | hE | hF
  · omega
  · omega
  · omega
  · omega

/-- The fallback row `NOP` is none of the 34 (R105). -/
theorem mnemonic_ne_nop : ∀ r ∈ opcodeTable, r.mnemonic ≠ "NOP" := by decide

/-! ### The table's name of a word -/

section
variable {w : Word}

theorem tableMnemonic_of_hits {r : OpcodeRow} (hr : r ∈ opcodeTable) (h : r.hits w = true) :
    tableMnemonic w = r.mnemonic := by
  rw [tableMnemonic]
  cases hfind : opcodeTable.find? (·.hits w) with
  | none => exact absurd h (List.find?_eq_none.1 hfind r hr)
  | some r' =>
    have hhit : r'.hits w = true := by simpa using List.find?_some hfind
    rw [opcodeTable_disjoint hr (List.mem_of_find?_eq_some hfind) h hhit]
    rfl

theorem tableMnemonic_of_unassigned (hw : unassigned w = true) : tableMnemonic w = "NOP" := by
  rw [tableMnemonic, List.find?_eq_none.2 (not_hits_of_unassigned hw)]
  rfl

end

/-! ### The row of an instruction and of a decoded word -/

/-- The fixed bits of its row stand in the word of every instruction. -/
theorem tableRow : ∀ i : Instr, Laws.TableRow.Statement i
  | .cls => Laws.TableRow.cls
  | .ret => Laws.TableRow.ret
  | .jp nnn => Laws.TableRow.jp nnn
  | .call nnn => Laws.TableRow.call nnn
  | .seImm x kk => Laws.TableRow.seImm x kk
  | .sneImm x kk => Laws.TableRow.sneImm x kk
  | .seReg x y n => Laws.TableRow.seReg x y n
  | .ldImm x kk => Laws.TableRow.ldImm x kk
  | .addImm x kk => Laws.TableRow.addImm x kk
  | .ldReg x y => Laws.TableRow.ldReg x y
  | .or x y => Laws.TableRow.or x y
  | .and x y => Laws.TableRow.and x y
  | .xor x y => Laws.TableRow.xor x y
  | .addReg x y => Laws.TableRow.addReg x y
  | .sub x y => Laws.TableRow.sub x y
  | .shr x y => Laws.TableRow.shr x y
  | .subn x y => Laws.TableRow.subn x y
  | .shl x y => Laws.TableRow.shl x y
  | .sneReg x y n => Laws.TableRow.sneReg x y n
  | .ldI nnn => Laws.TableRow.ldI nnn
  | .jpV0 nnn => Laws.TableRow.jpV0 nnn
  | .rnd x kk => Laws.TableRow.rnd x kk
  | .drw x y n => Laws.TableRow.drw x y n
  | .skp x => Laws.TableRow.skp x
  | .sknp x => Laws.TableRow.sknp x
  | .ldVxDT x => Laws.TableRow.ldVxDT x
  | .ldVxK x => Laws.TableRow.ldVxK x
  | .ldDTVx x => Laws.TableRow.ldDTVx x
  | .ldSTVx x => Laws.TableRow.ldSTVx x
  | .addIVx x => Laws.TableRow.addIVx x
  | .ldFVx x => Laws.TableRow.ldFVx x
  | .ldBVx x => Laws.TableRow.ldBVx x
  | .ldMemVx x => Laws.TableRow.ldMemVx x
  | .ldVxMem x => Laws.TableRow.ldVxMem x
  | .nop w => Laws.TableRow.nop w

/-- Every instruction but the no-op has a row of its own name. -/
theorem exists_row (i : Instr) : (∃ w, i = .nop w) ∨ ∃ r ∈ opcodeTable, r.mnemonic = i.mnemonic := by
  have of_any (h : opcodeTable.any (fun r => r.mnemonic == i.mnemonic) = true) :
      ∃ r ∈ opcodeTable, r.mnemonic = i.mnemonic := by simpa only [List.any_eq_true, beq_iff_eq] using h
  cases i with
  | nop w => exact .inl ⟨w, rfl⟩
  | _ => exact .inr (of_any rfl)

/-- A word is unassigned and read as a no-op, or it matches a row and is read as that row's instruction (R104, R105). -/
theorem decode_cases (w : Word) : (unassigned w = true ∧ decode w = .nop w) ∨
    ∃ r ∈ opcodeTable, r.hits w = true ∧ (decode w).mnemonic = r.mnemonic := by
  obtain ⟨hwf, henc⟩ := decode_reads w
  rcases exists_row (decode w) with ⟨v, hv⟩ | ⟨r, hr, hname⟩
  · rw [hv] at hwf henc
    obtain rfl : v = w := henc
    exact .inl ⟨hwf, hv⟩
  · have hhit := tableRow (decode w) r hr hname
    rw [henc] at hhit
    exact .inr ⟨r, hr, hhit, hname.symm⟩

theorem decode_of_unassigned {w : Word} (hw : unassigned w = true) : decode w = .nop w := by
  rcases decode_cases w with ⟨-, h⟩ | ⟨r, hr, hhit, -⟩
  · exact h
  · exact absurd hhit (not_hits_of_unassigned hw r hr)

theorem unassigned_of_mnemonic {w : Word} (h : (decode w).mnemonic = "NOP") : unassigned w = true := by
  rcases decode_cases w with ⟨hw, -⟩ | ⟨r, hr, -, hname⟩
  · exact hw
  · exact absurd (hname.symm.trans h) (mnemonic_ne_nop r hr)

/-! ### Decoding an encoded instruction -/

/-- The fields of an encoded word choose the decoder's arm and give the operands back; a no-op is well-formed only with a
word that no row matches. -/
theorem decode_encode (i : Instr) (hi : i.wellFormed = true) : decode (encode i) = i := by
  cases i with
  | cls | ret => rfl
  | nop w => exact decode_of_unassigned hi
  | ldReg | or | and | xor | addReg | sub | shr | subn | shl => simp [encode, decode, decodeFamily8]
  | skp | sknp => simp [encode, decode, decodeFamilyE]
  | ldVxDT | ldVxK | ldDTVx | ldSTVx | addIVx | ldFVx | ldBVx | ldMemVx | ldVxMem =>
    simp [encode, decode, decodeFamilyF]
  | _ => simp [encode, decode]

end Sys2Proof

namespace Sys2Proof.Proofs

/-- Settles O1, instruction by instruction, from the fields of encoded words. -/
theorem decodeEncodeRoundTrip : Obligations.DecodeEncodeRoundTrip := decode_encode

/-- Settles O3: a common word would make the fixed bits of two rows agree, which those of no two rows do. -/
theorem opcodeRowsDisjoint : Obligations.OpcodeRowsDisjoint := fun _ _ _ => opcodeTable_disjoint

/-- Settles O4: the row that a word's reading is named after matches the word, and no other row does. -/
theorem decoderFollowsTable : Obligations.DecoderFollowsTable := by
  intro w
  rcases decode_cases w with ⟨hw, hnop⟩ | ⟨r, hr, hhit, hname⟩
  · rw [hnop, tableMnemonic_of_unassigned hw]
    rfl
  · rw [hname, tableMnemonic_of_hits hr hhit]

/-- Settles O5: an unassigned word is read as itself in a no-op, and no row of the table is called a no-op. -/
theorem unassignedWordsAreNops : Obligations.UnassignedWordsAreNops := by
  intro w
  refine ⟨⟨fun h => ?_, decode_of_unassigned⟩, unassigned_of_mnemonic, fun hw => ?_⟩
  · exact unassigned_of_mnemonic (by rw [h]; rfl)
  · rw [decode_of_unassigned hw]
    rfl

end Sys2Proof.Proofs
end

section
/-!
The ignored bits (30_encoding.md R99, R101, R124): words that differ in them only are executed alike.
-/

namespace Sys2Proof
open Sys2Proof.Machine

/-! ### Words that differ in ignored bits -/

section
variable {w w' : Word}

/-- Words that agree under a mask agree in every field that the mask covers. -/
theorem extractLsb_congr {m : Word} {hi lo : Nat} (h : w &&& m = w' &&& m)
    (hm : m.extractLsb hi lo = BitVec.allOnes (hi - lo + 1)) : w.extractLsb hi lo = w'.extractLsb hi lo := by
  have hfield := congrArg (BitVec.extractLsb hi lo) h
  rwa [BitVec.extractLsb_and, BitVec.extractLsb_and, hm, BitVec.and_allOnes, BitVec.and_allOnes] at hfield

theorem decode_family5 (hop : fieldOp w = 0x5) : decode w = .seReg (fieldX w) (fieldY w) (fieldN w) := by
  simp [decode, hop]

theorem decode_family9 (hop : fieldOp w = 0x9) : decode w = .sneReg (fieldX w) (fieldY w) (fieldN w) := by
  simp [decode, hop]

theorem decode_shr (hop : fieldOp w = 0x8) (hn : fieldN w = 0x6) : decode w = .shr (fieldX w) (fieldY w) := by
  simp [decode, decodeFamily8, hop, hn]

theorem decode_shl (hop : fieldOp w = 0x8) (hn : fieldN w = 0xE) : decode w = .shl (fieldX w) (fieldY w) := by
  simp [decode, decodeFamily8, hop, hn]

/-- The low nibble of families 5 and 9 is ignored (R99, D9). -/
theorem exec_decode_ignores_n (hop : fieldOp w = 0x5 ∨ fieldOp w = 0x9) (h : w &&& 0xFFF0 = w' &&& 0xFFF0)
    (s : State) : exec (decode w) s = exec (decode w') s := by
  have hop' : fieldOp w = fieldOp w' := extractLsb_congr h rfl
  have hx : fieldX w = fieldX w' := congrArg BitVec.toFin (extractLsb_congr h rfl)
  have hy : fieldY w = fieldY w' := congrArg BitVec.toFin (extractLsb_congr h rfl)
  rcases hop with h5 | h9
  · rw [decode_family5 h5, decode_family5 (hop' ▸ h5), hx, hy]
    rfl
  · rw [decode_family9 h9, decode_family9 (hop' ▸ h9), hx, hy]
    rfl

/-- The `y` field of the shifts is ignored (R101, D12). -/
theorem exec_decode_ignores_y (hop : fieldOp w = 0x8) (hn : fieldN w = 0x6 ∨ fieldN w = 0xE)
    (h : w &&& 0xFF0F = w' &&& 0xFF0F) (s : State) : exec (decode w) s = exec (decode w') s := by
  have hop' : fieldOp w = fieldOp w' := extractLsb_congr h rfl
  have hx : fieldX w = fieldX w' := congrArg BitVec.toFin (extractLsb_congr h rfl)
  have hn' : fieldN w = fieldN w' := extractLsb_congr h rfl
  rcases hn with h6 | hE
  · rw [decode_shr hop h6, decode_shr (hop' ▸ hop) (hn' ▸ h6), hx]
    rfl
  · rw [decode_shl hop hE, decode_shl (hop' ▸ hop) (hn' ▸ hE), hx]
    rfl

/-- An unassigned word does nothing whatever its bits (R124). -/
theorem exec_decode_unassigned (hw : unassigned w = true) (s : State) : exec (decode w) s = .next s := by
  rw [decode_of_unassigned hw]
  rfl

end

end Sys2Proof

namespace Sys2Proof.Proofs

/-- Settles O8: the fields the meanings read are covered by the masks, and every unassigned word leaves the state. -/
theorem ignoredBitsHaveNoEffect : Obligations.IgnoredBitsHaveNoEffect := by
  intro w w' s
  refine ⟨fun hop h => exec_decode_ignores_n hop h s, fun hop hn h => exec_decode_ignores_y hop hn h s,
    fun hw hw' => ?_⟩
  rw [exec_decode_unassigned hw, exec_decode_unassigned hw']

end Sys2Proof.Proofs
end

section
/-!
Control transfer (40_flow.md): `CALL` and `RET` when the stack has room or an entry and when it has not, the target of the
indexed jump, and the step on an unassigned word.
-/

namespace Sys2Proof.Machine

/-! ### `CALL` and `RET` -/

section
variable {s : State}

theorem exec_call_room (nnn : Addr) (h : s.sp.toNat < s.params.stackDepth) :
    exec (.call nnn) s =
      .next { s with stack := s.stack.set s.sp.toNat s.pc, sp := s.sp + 1, pc := addrWord nnn } :=
  (execCall_eq nnn s).trans (by rw [if_neg h.ne])

theorem exec_call_full (nnn : Addr) (h : s.sp.toNat = s.params.stackDepth) :
    exec (.call nnn) s = .next (s.raise (.stackOverflow s.pc)) :=
  (execCall_eq nnn s).trans (by rw [if_pos h])

theorem exec_ret_empty (h : s.sp = 0) : exec .ret s = .next (s.raise .stackUnderflow) :=
  (execRet_eq s).trans (by rw [if_pos h])

/-- `RET` goes to what the pop gives, in the state that the pop leaves. -/
theorem exec_ret_of_pop {t : State} {a : Word} (h : s.pop = .ok (a, t)) : exec .ret s = .next (t.jump a) := by
  change s.commit (s.pop.map fun r => r.2.jump r.1) = _
  rw [h]
  rfl

/-- A stack that holds an entry gives up the one in the slot below `sp`, and `sp` loses 1 (R28). -/
theorem State.pop_slot {a : Word} (h : s.sp ≠ 0) (hslot : s.stack[s.sp.toNat - 1]? = some a) :
    s.pop = .ok (a, { s with sp := s.sp - 1 }) := by
  rw [State.pop_held h, Byte.toNat_pred h, List.getD_eq_getElem?_getD, hslot, Option.getD_some]

theorem State.Inv.sp_lt_stack_length (hs : s.Inv) (h : s.sp.toNat < s.params.stackDepth) :
    s.sp.toNat < s.stack.length := hs.stackSize ▸ h

theorem State.Inv.stackDepth_le (hs : s.Inv) : s.params.stackDepth ≤ 255 := by
  obtain ⟨_, _, _, _, hdepth, _⟩ := Params.bounds hs.params
  exact hdepth

end

/-! ### The indexed jump -/

/-- Without `JP_V0_ACCUMULATE` the sum is at most 4095 + 255, so 16 bits hold it (R123, R26). -/
theorem indexedTarget_false_toNat (pc : Word) (nnn : Addr) (v0 : Byte) :
    (indexedTarget false pc nnn v0).toNat = nnn.toNat + v0.toNat := by
  have := nnn.isLt
  have := v0.isLt
  simp only [indexedTarget, Bool.false_eq_true, if_false, BitVec.toNat_add, addrWord_toNat, byteWord_toNat]
  omega

theorem indexedTarget_true_toNat (pc : Word) (nnn : Addr) (v0 : Byte) :
    (indexedTarget true pc nnn v0).toNat = (pc.toNat + nnn.toNat + v0.toNat) % 65536 := by
  simp only [indexedTarget, if_true, BitVec.toNat_add, addrWord_toNat, byteWord_toNat]
  omega

end Sys2Proof.Machine

namespace Sys2Proof.Proofs
open Sys2Proof.Machine

/-- Settles O26: a push with room fills the slot that `sp` counts to, which `Inv` places inside the stack. -/
theorem callPushesReturnAddress : Obligations.CallPushesReturnAddress := by
  intro nnn s
  constructor
  · intro hs hroom
    have hdepth := hs.stackDepth_le
    refine ⟨_, exec_call_room nnn hroom, addrWord_toNat nnn, Byte.toNat_succ (by omega), ?_, fun j hj => ?_,
      frame_call s _ _ _⟩
    · exact List.getElem?_set_self (hs.sp_lt_stack_length hroom)
    · exact List.getElem?_set_ne hj.symm
  · exact exec_call_full nnn

/-- Settles O28: the pop right above the entries of `s` reads the return address that the `CALL` has pushed there. -/
theorem returnUndoesCall : Obligations.ReturnUndoesCall := by
  intro nnn s hs hroom
  have hdepth := hs.stackDepth_le
  have hslot : (s.stack.set s.sp.toNat s.pc)[s.sp.toNat]? = some s.pc :=
    List.getElem?_set_self (hs.sp_lt_stack_length hroom)
  have hpop := State.pop_above (s := s.jump (addrWord nnn)) (show s.sp.toNat < 255 by omega) hslot
  exact ⟨_, _, exec_call_room nnn hroom, exec_ret_of_pop hpop, rfl⟩

/-- Settles O24: the pop of the newest entry and a jump to it, or the fault of an empty stack. -/
theorem returnPops : Obligations.ReturnPops := by
  intro s a
  constructor
  · intro hne hslot
    exact ⟨_, exec_ret_of_pop (State.pop_slot hne hslot), rfl, Byte.toNat_pred hne, rfl, frame_return s _ _⟩
  · exact exec_ret_empty

/-- Settles O25, by the update `State.jump` and its frame. -/
theorem jumpGoesToTarget : Obligations.JumpGoesToTarget :=
  fun nnn s => ⟨s.jump (addrWord nnn), rfl, addrWord_toNat nnn, frame_jump s _⟩

/-- Settles O29: a jump to `indexedTarget`, whose value is known under either parameter (D14). -/
theorem indexedJump : Obligations.IndexedJump := by
  intro nnn s
  refine ⟨s.jump (indexedTarget s.params.jpV0Accumulate s.pc nnn (s.reg 0)), rfl, fun hacc => ?_, fun hacc => ?_,
    frame_jump s _⟩
  · rw [State.jump_pc, hacc, indexedTarget_false_toNat]
  · rw [State.jump_pc, hacc, indexedTarget_true_toNat]

/-- Settles O30: an unassigned word decodes to a no-op, so only the fetch's increment is left of the step. -/
theorem nopOnlyAdvances : Obligations.NopOnlyAdvances := by
  intro w s
  refine ⟨rfl, fun hrun hfetch hw => ?_⟩
  rw [step_fetched hrun hfetch, exec_decode_unassigned hw]
  rfl

end Sys2Proof.Proofs
end

section
/-!
Skips (41_skip.md R130 to R133): where `pc` stands after a skip on equal and on unequal bytes.
-/

namespace Sys2Proof.Machine

section
variable (s : State)

/-- What a skip adds to `pc` wraps at 65536 (R25). -/
theorem State.skipIf_pc_toNat (c : Bool) :
    (s.skipIf c).pc.toNat = if c then (s.pc.toNat + 2) % 65536 else s.pc.toNat := by
  cases c <;> simp

theorem State.skipIf_beq_pc_toNat (a b : Byte) :
    (s.skipIf (a == b)).pc.toNat = if a.toNat = b.toNat then (s.pc.toNat + 2) % 65536 else s.pc.toNat := by
  simp only [State.skipIf_pc_toNat, beq_iff_eq, BitVec.toNat_inj]

theorem State.skipIf_bne_pc_toNat (a b : Byte) :
    (s.skipIf (a != b)).pc.toNat = if a.toNat = b.toNat then s.pc.toNat else (s.pc.toNat + 2) % 65536 := by
  simp only [State.skipIf_pc_toNat, bne_iff_ne, ne_eq, ite_not, BitVec.toNat_inj]

end

end Sys2Proof.Machine

namespace Sys2Proof.Proofs
open Sys2Proof.Machine

/-- Settles O31: both are skips on a comparison of `V[x]` with `kk`, and a skip has the frame of `pc` alone. -/
theorem skipOnByte : Obligations.SkipOnByte := fun x kk s =>
  ⟨⟨_, rfl, s.skipIf_beq_pc_toNat (s.reg x) kk, frame_skipIf s _⟩,
   ⟨_, rfl, s.skipIf_bne_pc_toNat (s.reg x) kk, frame_skipIf s _⟩⟩

/-- Settles O32: both are skips on a comparison of `V[x]` with `V[y]`, in which the low nibble does not occur (D9). -/
theorem skipOnRegister : Obligations.SkipOnRegister := fun x y _ s =>
  ⟨⟨_, rfl, s.skipIf_beq_pc_toNat (s.reg x) (s.reg y), frame_skipIf s _⟩,
   ⟨_, rfl, s.skipIf_bne_pc_toNat (s.reg x) (s.reg y), frame_skipIf s _⟩⟩

end Sys2Proof.Proofs
end

section
/-!
Immediate loads, immediate add, random (42_load_imm.md R140 to R143): what a mask leaves of a byte.
-/

namespace Sys2Proof.Machine

/-- Every bit that is 0 in the mask is 0 in the masked byte (R143). -/
theorem Byte.mask_and_not_mask (r kk : Byte) : r &&& kk &&& ~~~kk = 0 := by
  rw [BitVec.and_assoc, BitVec.and_not_self]
  exact BitVec.and_zero

theorem State.reg_maskInto_same (s : State) (r : Byte) (x : Reg) (kk : Byte) : (s.maskInto r x kk).reg x = r &&& kk :=
  (s.reg_maskInto r x x kk).trans (if_pos rfl)

end Sys2Proof.Machine

namespace Sys2Proof.Proofs
open Sys2Proof.Machine

/-- Settles O33: both write `V[x]` alone, the second one a sum of bytes, which wraps at 256. -/
theorem loadAndAddByte : Obligations.LoadAndAddByte := by
  intro x kk s
  refine ⟨⟨s.setReg x kk, rfl, s.reg_setReg_same x kk, frame_setReg s x kk⟩,
    ⟨s.setReg x (s.reg x + kk), rfl, ?_, frame_setReg s x _⟩⟩
  rw [State.reg_setReg_same, BitVec.toNat_add]

/-- Settles O34: the zero-extended address has the value of the address, and `I` alone is written. -/
theorem loadIndexImmediate : Obligations.LoadIndexImmediate :=
  fun nnn s => ⟨s.setI (addrWord nnn), rfl, addrWord_toNat nnn, frame_setI s _⟩

/-- Settles O35: `V[x]` holds a byte under the mask, whatever byte was drawn (D27). -/
theorem randomByteIsMasked : Obligations.RandomByteIsMasked := by
  intro x kk s
  have hreg := s.countDraw.reg_maskInto_same (Config.randByte s.draws) x kk
  refine ⟨⟨_, rfl, hreg, ?_, fun hkk => ?_, rfl, frame_maskInto s x _ kk⟩, fun r => s.reg_maskInto_same r x kk⟩
  · rw [hreg, Byte.mask_and_not_mask]
  · rw [hreg, hkk]
    exact BitVec.and_zero

end Sys2Proof.Proofs
end

section
/-!
Register-register group (43_alu.md R150 to R159): the two reads after the write order of R150, and the results and flags
as arithmetic on the operands' values.
-/

namespace Sys2Proof.Machine

/-! ### What stands in the registers after the flag and the result are written -/

section
variable (s : State) (flag : Option Bool) {x : Reg} (b : Byte)

/-- The result is written last, so it stands in its register even where that is the flag register (R150, D11). -/
theorem State.reg_writeFlagThenResult_same (x : Reg) : (s.writeFlagThenResult flag x b).reg x = b :=
  (s.reg_writeFlagThenResult flag x x b).trans (if_pos rfl)

theorem State.reg_writeFlagThenResult_vf (h : x ≠ vf) :
    (s.writeFlagThenResult flag x b).reg vf = (flag.map flagByte).getD (s.reg vf) := by
  rw [State.reg_writeFlagThenResult, if_neg h.symm, if_pos rfl]

end

/-- A frame that names more registers says less. -/
theorem Frame.regs_mono {m : Touched} {s t : State} {regs : List Reg} (h : Frame m s t) (hsub : m.regs ⊆ regs) :
    Frame { m with regs := regs } s t :=
  { h with regs := fun r hr => h.regs r fun hm => hr (hsub hm) }

/-- `V[x]` and the flag register bound the change whether or not there is a flag to write. -/
theorem frame_writeFlagThenResult_le (s : State) (flag : Option Bool) (x : Reg) (b : Byte) :
    Frame { regs := [x, vf] } s (s.writeFlagThenResult flag x b) := by
  refine (frame_writeFlagThenResult s flag x b).regs_mono ?_
  cases flag with
  | none => exact List.cons_subset_cons x (List.nil_subset _)
  | some _ => exact List.Subset.refl _

/-! ### Results -/

theorem Byte.toNat_sub (a b : Byte) : (a - b).toNat = (a.toNat + 256 - b.toNat) % 256 := by
  have := b.isLt
  rw [BitVec.toNat_sub]
  omega

theorem Byte.toNat_shiftRight_one (a : Byte) : (a >>> 1).toNat = a.toNat / 2 := by
  rw [BitVec.toNat_ushiftRight, Nat.shiftRight_one]

theorem Byte.toNat_shiftLeft_one (a : Byte) : (a <<< 1).toNat = a.toNat * 2 % 256 := by
  rw [BitVec.toNat_shiftLeft, Nat.shiftLeft_eq, pow_one]

/-! ### Flags -/

/-- What the register add leaves in the flag register: 1 on carry, the old value otherwise (R155). -/
theorem carryFlag_getD (a b old : Byte) :
    ((if carries a b then some true else none : Option Bool).map flagByte).getD old =
      if 255 < a.toNat + b.toNat then 1 else old := by
  simp only [← carries_iff]
  cases carries a b with
  | true => rfl
  | false => rfl

theorem flagByte_noBorrow (a b : Byte) : flagByte (noBorrow a b) = if b.toNat ≤ a.toNat then 1 else 0 := by
  simp only [flagByte, noBorrow_iff]

/-- A flag copied from bit `k` of a byte is that binary digit of its value (R157, R159). -/
theorem flagByte_getLsbD_toNat (a : Byte) (k : Nat) : (flagByte (a.getLsbD k)).toNat = a.toNat / 2 ^ k % 2 := by
  rw [← Nat.toNat_testBit, BitVec.testBit_toNat, flagByte_toNat, Bool.toNat, Bool.cond_eq_ite]

/-! ### The difference with its flag -/

/-- Both subtractions: the difference wraps at 256, and the flag compares the operands (R156, R158). -/
theorem State.difference_written (s : State) (x : Reg) (minuend subtrahend : Byte) :
    let t := s.writeFlagThenResult (some (noBorrow minuend subtrahend)) x (minuend - subtrahend)
    (t.reg x).toNat = (minuend.toNat + 256 - subtrahend.toNat) % 256 ∧
    (x ≠ vf → t.reg vf = if subtrahend.toNat ≤ minuend.toNat then 1 else 0) ∧
    Frame { regs := [x, vf] } s t := by
  refine ⟨?_, fun hx => ?_, frame_writeFlagThenResult_le s _ x _⟩
  · rw [State.reg_writeFlagThenResult_same, Byte.toNat_sub]
  · exact (State.reg_writeFlagThenResult_vf s _ _ hx).trans (flagByte_noBorrow _ _)

end Sys2Proof.Machine

namespace Sys2Proof.Proofs
open Sys2Proof.Machine

/-- Settles O36: each writes `V[x]` alone (D29), and what it writes is read back. -/
theorem assignAndBitwise : Obligations.AssignAndBitwise := by
  intro x y s
  have hwrite (b : Byte) : (s.setReg x b).reg x = b ∧ Frame { regs := [x] } s (s.setReg x b) :=
    ⟨s.reg_setReg_same x b, frame_setReg s x b⟩
  exact ⟨⟨_, rfl, hwrite _⟩, ⟨_, rfl, hwrite _⟩, ⟨_, rfl, hwrite _⟩, ⟨_, rfl, hwrite _⟩⟩

/-- Settles O37: a sum of bytes wraps at 256, and the flag is written exactly on carry. -/
theorem addSetsCarryOnly : Obligations.AddSetsCarryOnly := by
  intro x y s
  refine ⟨_, rfl, ?_, fun hx => ?_, frame_writeFlagThenResult_le s _ x _⟩
  · rw [State.reg_writeFlagThenResult_same, BitVec.toNat_add]
  · rw [State.reg_writeFlagThenResult_vf s _ _ hx, carryFlag_getD]

/-- Settles O38: the difference `V[x] - V[y]` and its flag. -/
theorem subtractSetsNotBorrow : Obligations.SubtractSetsNotBorrow :=
  fun x y s => ⟨_, rfl, s.difference_written x (s.reg x) (s.reg y)⟩

/-- Settles O39: the difference `V[y] - V[x]` and its flag, written as the one of O38 is. -/
theorem reversedSubtract : Obligations.ReversedSubtract :=
  fun x y s => ⟨_, rfl, s.difference_written x (s.reg y) (s.reg x)⟩

/-- Settles O40: a right shift halves the value, and the bit shifted out is its lowest binary digit. -/
theorem shiftRight : Obligations.ShiftRight := by
  intro x y s
  refine ⟨_, rfl, ?_, fun hx => ?_, frame_writeFlagThenResult_le s _ x _⟩
  · rw [State.reg_writeFlagThenResult_same, Byte.toNat_shiftRight_one]
  · rw [State.reg_writeFlagThenResult_vf s _ _ hx]
    exact (flagByte_getLsbD_toNat _ 0).trans (by rw [pow_zero, Nat.div_one])

/-- Settles O41: a left shift doubles the value modulo 256, and the flag is binary digit `SHL_FLAG_BIT`. -/
theorem shiftLeft : Obligations.ShiftLeft := by
  intro x y s
  refine ⟨_, rfl, ?_, fun hx => ?_, frame_writeFlagThenResult_le s _ x _⟩
  · rw [State.reg_writeFlagThenResult_same, Byte.toNat_shiftLeft_one]
  · rw [State.reg_writeFlagThenResult_vf s _ _ hx]
    exact flagByte_getLsbD_toNat _ _

end Sys2Proof.Proofs
end

section
/-!
Display (44_display.md R170 to R172) and the checked ranges of the memory instructions (60_exceptions.md R231): a drawn
sprite is the list of its cells, toggled in order, and on a display of at least 8 by 15 no cell stands twice in that list.
-/

namespace Sys2Proof.Machine

/-! ### How the memory instructions end -/

section
variable (x y : Reg) {n : Nibble} {s : State}

theorem Nibble.toNat_eq_zero_iff (n : Nibble) : n.toNat = 0 ↔ n = 0 :=
  BitVec.toNat_inj (y := 0)

theorem exec_drw_inMemory (h : n = 0 ∨ s.i.toNat + n.toNat ≤ s.params.memSize) :
    exec (.drw x y n) s = .next (s.finishBlit (blit s.params (s.reg x).toNat (s.reg y).toNat
      ((List.range n.toNat).map fun row => s.byte (s.i.toNat + row)) s.fb)) :=
  (execDrw_eq x y n s).trans (congrArg _ (if_pos (h.imp_left (Nibble.toNat_eq_zero_iff n).2)))

theorem exec_drw_outside (hn : n ≠ 0) (h : s.params.memSize < s.i.toNat + n.toNat) :
    exec (.drw x y n) s = .next (s.raise (.memoryOutOfBounds (max s.i.toNat s.params.memSize))) :=
  (execDrw_eq x y n s).trans
    (congrArg _ (if_neg (not_or.2 ⟨mt (Nibble.toNat_eq_zero_iff n).1 hn, h.not_ge⟩)))

theorem exec_ldBVx_outside (h : s.params.memSize < s.i.toNat + 3) :
    exec (.ldBVx x) s = .next (s.raise (.memoryOutOfBounds (max s.i.toNat s.params.memSize))) :=
  (execLdBVx_eq x s).trans (congrArg _ (if_neg h.not_ge))

theorem exec_ldMemVx_outside (h : s.params.memSize < s.i.toNat + (x.val + 1)) :
    exec (.ldMemVx x) s = .next (s.raise (.memoryOutOfBounds (max s.i.toNat s.params.memSize))) :=
  (execLdMemVx_eq x s).trans (congrArg _ (if_neg h.not_ge))

theorem exec_ldVxMem_outside (h : s.params.memSize < s.i.toNat + (x.val + 1)) :
    exec (.ldVxMem x) s = .next (s.raise (.memoryOutOfBounds (max s.i.toNat s.params.memSize))) :=
  (execLdVxMem_eq x s).trans (congrArg _ (if_neg h.not_ge))

end

/-! ### A sprite drawn -/

section
variable {p : Params} (hw : 1 ≤ p.displayW) (hh : 1 ≤ p.displayH) {fb : Display}
  (hs : fb.HasShape p.displayH p.displayW) (x0 y0 : Nat) (rows : List Byte)
include hw hh hs

/-- A cell ends inverted when an odd number of the sprite's set bits landed on it (R170). -/
theorem blit_cell (cy cx : Nat) :
    (blit p x0 y0 rows fb).fb.cell cy cx =
      (fb.cell cy cx ^^ decide ((spriteCells p x0 y0 rows).count (cy, cx) % 2 = 1)) := by
  rw [blit, blitRows_eq_hits]
  exact Blit.hits_cell (b := ⟨fb, false⟩) hs (spriteCells_inside hw hh x0 y0 rows) cy cx

/-- The collision: some set bit found its cell lit after the toggles before its own (R170 e). -/
theorem blit_collided :
    let cells := spriteCells p x0 y0 rows
    (blit p x0 y0 rows fb).collided = true ↔ ∃ k, ∃ h : k < cells.length,
      (fb.cell cells[k].1 cells[k].2 ^^ decide ((cells.take k).count cells[k] % 2 = 1)) = true := by
  intro cells
  rw [blit, blitRows_eq_hits, Blit.hits_collided (b := ⟨fb, false⟩) hs (spriteCells_inside hw hh x0 y0 rows)]
  exact or_iff_right Bool.false_ne_true

/-- A second drawing at the same place undoes the first (D21). -/
theorem blit_blit : (blit p x0 y0 rows (blit p x0 y0 rows fb).fb).fb = fb := by
  have hs' := blit_shape hs p x0 y0 rows
  refine Display.ext_cell (blit_shape hs' p x0 y0 rows) hs fun cy cx => ?_
  rw [blit_cell hw hh hs', blit_cell hw hh hs, Bool.xor_assoc, Bool.xor_self, Bool.xor_false]

end

theorem flagByte_eq_one_iff (c : Bool) : flagByte c = 1 ↔ c = true := by cases c <;> decide

theorem flagByte_eq_one_or_zero (c : Bool) : flagByte c = 1 ∨ flagByte c = 0 := by cases c <;> decide

theorem State.reg_finishBlit_vf (s : State) (b : Blit) : (s.finishBlit b).reg vf = flagByte b.collided :=
  (s.reg_finishBlit b vf).trans (if_pos rfl)

/-! ### A sprite that cannot meet itself -/

theorem eq_of_add_mod_eq {m a b : Nat} (base : Nat) (ha : a < m) (hb : b < m) (h : (base + a) % m = (base + b) % m) :
    a = b :=
  (Nat.ModEq.add_left_cancel' base h).eq_of_lt_of_lt ha hb

section
variable {p : Params} (hw : 8 ≤ p.displayW) (x0 y : Nat)
include hw

/-- Eight neighbouring columns stay apart when they wrap on a display at least that wide. -/
theorem spriteRowCells_nodup (bits : Byte) : (spriteRowCells p x0 y bits).Nodup := by
  refine (List.nodup_range.filter _).map_on fun a ha b hb hab => ?_
  have lt8 {col : Nat} (h : col ∈ (List.range 8).filter fun col => bits.getLsbD (7 - col)) : col < 8 :=
    List.mem_range.1 (List.mem_of_mem_filter h)
  exact eq_of_add_mod_eq x0 ((lt8 ha).trans_le hw) ((lt8 hb).trans_le hw) (Prod.mk.inj hab).2

/-- A sprite of no more rows than the display toggles no cell twice. -/
theorem spriteCells_nodup {rows : List Byte} (hh : rows.length ≤ p.displayH) : (spriteCells p x0 y rows).Nodup := by
  induction rows generalizing y with
  | nil => exact List.nodup_nil
  | cons bits rest ih =>
    rw [List.length_cons] at hh
    refine (spriteRowCells_nodup hw x0 y bits).append (ih (y + 1) (by omega)) fun c hc hrest => ?_
    obtain ⟨col, -, rfl⟩ := List.mem_map.1 hc
    obtain ⟨row, hrow, col', -, -, hcell⟩ := mem_spriteCells.1 hrest
    have hy : (y + 0) % p.displayH = (y + (1 + row)) % p.displayH := by
      rw [← Nat.add_assoc]; exact (Prod.mk.inj hcell).1
    have := eq_of_add_mod_eq y (by omega) (by omega) hy
    omega

end

section
variable {α : Type} [BEq α] [LawfulBEq α] {l : List α} (hl : l.Nodup)
include hl

theorem nodup_count_odd_iff (a : α) : l.count a % 2 = 1 ↔ a ∈ l := by
  have := List.nodup_iff_count_le_one.1 hl a
  rw [← List.count_pos_iff]
  omega

theorem nodup_count_take_getElem {k : Nat} (hk : k < l.length) : (l.take k).count l[k] = 0 := by
  refine List.count_eq_zero.2 fun hmem => ?_
  obtain ⟨j, hj, he⟩ := List.mem_take_iff_getElem.1 hmem
  have := (hl.getElem_inj_iff).1 he
  omega

end

/-- The sprite that stands in memory at `f 0`, `f 1`, ...: row and column of every set bit. -/
theorem mem_spriteCells_map_range {p : Params} {x0 y0 n : Nat} {f : Nat → Byte} {cy cx : Nat} :
    (cy, cx) ∈ spriteCells p x0 y0 ((List.range n).map f) ↔
      ∃ row col, row < n ∧ col < 8 ∧ (f row).getLsbD (7 - col) = true ∧
        cy = (y0 + row) % p.displayH ∧ cx = (x0 + col) % p.displayW := by
  have hrow {row : Nat} (h : row < n) : ((List.range n).map f).getD row 0 = f row := by simp [h]
  rw [mem_spriteCells, List.length_map, List.length_range]
  constructor
  · rintro ⟨row, hr, col, h8, hbit, hcell⟩
    exact ⟨row, col, hr, h8, hrow hr ▸ hbit, Prod.mk.inj hcell⟩
  · rintro ⟨row, col, hr, h8, hbit, rfl, rfl⟩
    exact ⟨row, hr, col, h8, (hrow hr).symm ▸ hbit, rfl⟩

end Sys2Proof.Machine

namespace Sys2Proof.Proofs
open Sys2Proof.Machine

/-- Settles O23: each range check fails with `max(I, MEM_SIZE)`, and a failed check only latches its cause. -/
theorem memoryInstructionsFaultLowest : Obligations.MemoryInstructionsFaultLowest :=
  fun x y _ _ => ⟨exec_drw_outside x y, exec_ldBVx_outside x,
    fun h => ⟨exec_ldMemVx_outside x h, exec_ldVxMem_outside x h⟩⟩

/-- Settles O43: the cells and the collision of the blit, which `finishBlit` writes back with its own frame. -/
theorem drawTogglesCells : Obligations.DrawTogglesCells := by
  intro x y n s hs hin cells
  obtain ⟨-, -, -, -, -, hw, hh, -⟩ := Params.bounds hs.params
  have hshape : s.fb.HasShape s.params.displayH s.params.displayW := ⟨hs.rows, hs.columns⟩
  refine ⟨_, exec_drw_inMemory x y hin, blit_cell hw hh hshape _ _ _, ?_, ?_, frame_finishBlit s _⟩
  · rw [State.reg_finishBlit_vf]
    exact flagByte_eq_one_or_zero _
  · rw [State.reg_finishBlit_vf, flagByte_eq_one_iff]
    exact blit_collided hw hh hshape _ _ _

/-- Settles O44, from O43: no cell stands twice in the sprite's list, so an odd count is membership and no toggle comes before
a cell's own. -/
theorem drawWithoutSelfOverlap : Obligations.DrawWithoutSelfOverlap := by
  intro x y n s hs hw hh hin lands
  obtain ⟨t, ht, hcell, hbool, hflag, -⟩ := drawTogglesCells x y n s hs hin
  have hrows : ((List.range n.toNat).map fun row => s.byte (s.i.toNat + row)).length ≤ s.params.displayH := by
    have := n.isLt
    simp only [List.length_map, List.length_range]
    omega
  have hmem (cy cx : Nat) : (cy, cx) ∈ spriteCells s.params (s.reg x).toNat (s.reg y).toNat
      ((List.range n.toNat).map fun row => s.byte (s.i.toNat + row)) ↔ ∃ row col, lands row col cy cx :=
    mem_spriteCells_map_range
  have hnodup := spriteCells_nodup hw (s.reg x).toNat (s.reg y).toNat hrows
  refine ⟨t, ht, fun cy cx => ?_, hbool, hflag.trans ⟨?_, ?_⟩⟩
  · rw [hcell, decide_eq_decide.2 (nodup_count_odd_iff hnodup _), ← Bool.xor_iff_ne, Bool.xor_right_comm, Bool.xor_self,
      Bool.false_xor, decide_eq_true_iff]
    exact hmem cy cx
  · rintro ⟨k, hk, hlit⟩
    obtain ⟨row, col, hland⟩ := (hmem _ _).1 (List.getElem_mem hk)
    rw [nodup_count_take_getElem hnodup hk] at hlit
    exact ⟨row, col, _, _, hland, by simpa using hlit⟩
  · rintro ⟨row, col, cy, cx, hland, hlit⟩
    obtain ⟨k, hk, he⟩ := List.getElem_of_mem ((hmem cy cx).2 ⟨row, col, hland⟩)
    refine ⟨k, hk, ?_⟩
    rw [nodup_count_take_getElem hnodup hk, he]
    simpa using hlit

/-- Settles O45: both drawings invert the same cells, so the second undoes the first. -/
theorem drawTwiceRestores : Obligations.DrawTwiceRestores :=
  fun _ x0 y0 rows _ hw hh hrows hcols => blit_blit hw hh ⟨hrows, hcols⟩ x0 y0 rows

/-- Settles O42: the blank display has every cell off, and `setFb` has the frame of the display alone. -/
theorem clearDisplay : Obligations.ClearDisplay :=
  fun s => ⟨_, rfl, Display.blank_cell s.params, frame_setFb s _⟩

end Sys2Proof.Proofs
end

section
/-!
Keys (45_keys.md R180 to R182): how each of the three instructions ends, and that the key wait undoes the fetch's increment.
-/

namespace Sys2Proof.Machine

section
variable (x : Reg) {k : Reg} {s : State}

theorem exec_skp_inRange (hk : (s.reg x).toNat = k.val) : exec (.skp x) s = .next (s.skipIf s.keys[k.val]) := by
  refine (execSkp_eq x s).trans (congrArg _ ?_)
  simp only [hk, k.isLt, dif_pos]

theorem exec_sknp_inRange (hk : (s.reg x).toNat = k.val) : exec (.sknp x) s = .next (s.skipIf !s.keys[k.val]) := by
  refine (execSknp_eq x s).trans (congrArg _ ?_)
  simp only [hk, k.isLt, dif_pos]

theorem exec_skp_outOfRange (h : 15 < (s.reg x).toNat) :
    exec (.skp x) s = .next (s.raise (.keyIndexOutOfRange (s.reg x).toNat)) :=
  (execSkp_eq x s).trans (congrArg _ (dif_neg (Nat.not_lt.2 h)))

theorem exec_sknp_outOfRange (h : 15 < (s.reg x).toNat) :
    exec (.sknp x) s = .next (s.raise (.keyIndexOutOfRange (s.reg x).toNat)) :=
  (execSknp_eq x s).trans (congrArg _ (dif_neg (Nat.not_lt.2 h)))

theorem exec_ldVxK_of_firstKeyDown (h : s.firstKeyDown = some k) :
    exec (.ldVxK x) s = .next (s.setReg x (BitVec.ofNat 8 k.val)) := by
  rw [exec, execLdVxK, h]

theorem exec_ldVxK_of_noKeyDown (h : ∀ k : Reg, s.keys[k.val] = false) : exec (.ldVxK x) s = .next s.refetch := by
  rw [exec, execLdVxK, s.firstKeyDown_none.2 h]

end

/-- A key's index fits a byte. -/
theorem Reg.toNat_keyByte (k : Reg) : (BitVec.ofNat 8 k.val).toNat = k.val :=
  Nat.mod_eq_of_lt (k.isLt.trans (by decide))

theorem State.skipIf_not_pc_toNat (s : State) (c : Bool) :
    (s.skipIf !c).pc.toNat = if c then s.pc.toNat else (s.pc.toNat + 2) % 65536 := by
  cases c with
  | true => exact s.skipIf_pc_toNat false
  | false => exact s.skipIf_pc_toNat true

/-- The key wait takes back the fetch's increment of `pc` (D15). -/
@[simp] theorem State.refetch_advance (s : State) : s.advance.refetch = s := by
  rw [State.refetch, State.advance, BitVec.add_sub_cancel]

end Sys2Proof.Machine

namespace Sys2Proof.Proofs
open Sys2Proof.Machine

/-- Settles O46: in range both are skips on the state of one key, out of range both only latch the cause. -/
theorem keySkips : Obligations.KeySkips := by
  refine fun x k s => ⟨fun hk => ⟨?_, ?_⟩, fun h => ⟨exec_skp_outOfRange x h, exec_sknp_outOfRange x h⟩⟩
  · exact ⟨_, exec_skp_inRange x hk, s.skipIf_pc_toNat _, frame_skipIf s _⟩
  · exact ⟨_, exec_sknp_inRange x hk, s.skipIf_not_pc_toNat _, frame_skipIf s _⟩

/-- Settles O47: the scan ends at the lowest key that is down, and its index is written to `V[x]` alone. -/
theorem waitForKeyStoresLowest : Obligations.WaitForKeyStoresLowest := by
  intro x k s hk hlow
  refine ⟨_, exec_ldVxK_of_firstKeyDown x (State.firstKeyDown_some hk hlow), ?_, frame_setReg s x _⟩
  rw [State.reg_setReg_same, Reg.toNat_keyByte]

/-- Settles O48: with no key down the wait sets `pc` back, which undoes the fetch's increment. -/
theorem waitForKeyRefetches : Obligations.WaitForKeyRefetches := by
  refine fun x w s hkeys => ⟨exec_ldVxK_of_noKeyDown x hkeys, fun hrun hfetch hdec => ?_⟩
  rw [step_fetched hrun hfetch, hdec, exec_ldVxK_of_noKeyDown (s := s.advance) x hkeys, State.refetch_advance]

end Sys2Proof.Proofs
end

section
/-!
Timers, index register and memory transfers (46_timer_index_memory.md R190 to R197): what a block store leaves at each of its
addresses and a block load in each of its registers, and how the three memory instructions end when the range is in memory.
-/

namespace Sys2Proof.Machine

/-! ### Bytes stored and registers loaded, one at a time -/

section
variable (s : State)

/-- A block store leaves byte `k` of its list at `base + k` (R67). -/
theorem State.byte_writeBytes_add (base : Nat) {bytes : List Byte} {k : Nat} (hk : k < bytes.length) :
    (s.writeBytes base bytes).byte (base + k) = bytes.getD k 0 := by
  rw [State.byte_writeBytes, if_pos (by omega), Nat.add_sub_cancel_left]

theorem State.reg_loadRegs_map_range {n : Nat} (f : Nat → Byte) {r : Reg} (hr : r.val < n) :
    (s.loadRegs ((List.range n).map f)).reg r = f r.val := by
  have hlen : r.val < ((List.range n).map f).length := by rwa [List.length_map, List.length_range]
  rw [State.reg_loadRegs, if_pos hlen, List.getD_eq_getElem _ _ hlen, List.getElem_map, List.getElem_range]

end

/-! ### Decimal digits -/

/-- A number that fits a byte is stored as itself. -/
theorem Byte.toNat_ofNat_of_le {n : Nat} {b : Byte} (h : n ≤ b.toNat) : (BitVec.ofNat 8 n).toNat = n :=
  Nat.mod_eq_of_lt (h.trans_lt b.isLt)

theorem decimalDigits_hundreds (b : Byte) : ((decimalDigits b).getD 0 0).toNat = b.toNat / 100 :=
  Byte.toNat_ofNat_of_le (Nat.div_le_self _ _)

theorem decimalDigits_tens (b : Byte) : ((decimalDigits b).getD 1 0).toNat = b.toNat / 10 % 10 :=
  Byte.toNat_ofNat_of_le ((Nat.mod_le _ _).trans (Nat.div_le_self _ _))

theorem decimalDigits_ones (b : Byte) : ((decimalDigits b).getD 2 0).toNat = b.toNat % 10 :=
  Byte.toNat_ofNat_of_le (Nat.mod_le _ _)

/-! ### How the memory instructions end inside memory -/

section
variable (x : Reg) {s : State}

theorem exec_ldBVx_inMemory (h : s.i.toNat + 2 < s.params.memSize) :
    exec (.ldBVx x) s = .next (s.writeBytes s.i.toNat (decimalDigits (s.reg x))) :=
  (execLdBVx_eq x s).trans (congrArg _ (if_pos h))

theorem exec_ldMemVx_inMemory (h : s.i.toNat + x.val < s.params.memSize) :
    exec (.ldMemVx x) s = .next (s.writeBytes s.i.toNat (s.regsUpTo x)) :=
  (execLdMemVx_eq x s).trans (congrArg _ (if_pos h))

theorem exec_ldVxMem_inMemory (h : s.i.toNat + x.val < s.params.memSize) :
    exec (.ldVxMem x) s =
      .next (s.loadRegs ((List.range (x.val + 1)).map fun k => s.byte (s.i.toNat + k))) :=
  (execLdVxMem_eq x s).trans (congrArg _ (if_pos h))

end

end Sys2Proof.Machine

namespace Sys2Proof.Proofs
open Sys2Proof.Machine

/-- Settles O52: the three stored bytes are the decimal digits, and the store has the frame of three bytes at `I`. -/
theorem decimalDigitsStored : Obligations.DecimalDigitsStored := by
  intro x s h
  have hbyte {k : Nat} (hk : k < 3) := s.byte_writeBytes_add s.i.toNat (bytes := decimalDigits (s.reg x)) hk
  refine ⟨_, exec_ldBVx_inMemory x h, ?_, ?_, ?_, frame_writeBytes s _ rfl⟩
  · exact (congrArg BitVec.toNat (hbyte (k := 0) (by decide))).trans (decimalDigits_hundreds _)
  · rw [hbyte (by decide), decimalDigits_tens]
  · rw [hbyte (by decide), decimalDigits_ones]

/-- Settles O53: the stored bytes are `V[0]` to `V[x]` in order, and `I` is outside the frame of a store (D17). -/
theorem registersStored : Obligations.RegistersStored := by
  intro x s h
  have hlen := s.regsUpTo_length x
  refine ⟨_, exec_ldMemVx_inMemory x h, fun r hr => ?_, frame_writeBytes s _ hlen⟩
  rw [s.byte_writeBytes_add _ (hlen ▸ Nat.lt_succ_of_le hr), s.regsUpTo_getD x r hr]

/-- Settles O54: register `r` gets the byte at `I + r`, and `I` is outside the frame of a block load (D17). -/
theorem registersLoaded : Obligations.RegistersLoaded := by
  intro x s h
  refine ⟨_, exec_ldVxMem_inMemory x h, fun r hr => ?_, frame_loadRegs s x (by simp)⟩
  exact s.reg_loadRegs_map_range _ (Nat.lt_succ_of_le hr)

/-- Settles O49: each of the three is one write, of `V[x]`, of `DT` or of `ST`, with the frame of that write. -/
theorem timerTransfers : Obligations.TimerTransfers := fun x s =>
  ⟨⟨_, rfl, s.reg_setReg_same x _, frame_setReg s x _⟩,
    ⟨_, rfl, s.setDT_dt _, frame_setDT s _⟩,
    ⟨_, rfl, s.setST_st _, frame_setST s _⟩⟩

/-- Settles O50: a sum of 16-bit words, one of them a zero-extended byte, and `I` alone is written (D18). -/
theorem addToIndex : Obligations.AddToIndex := by
  refine fun x s => ⟨_, rfl, ?_, frame_setI s _⟩
  rw [State.setI_i, BitVec.toNat_add, byteWord_toNat]

/-- Settles O51: the glyph address is five times the low nibble, so at most that of glyph 15 (D16). -/
theorem glyphAddressOfLowNibble : Obligations.GlyphAddressOfLowNibble := by
  intro x s
  have haddr := glyphAddress_toNat (s.reg x)
  refine ⟨_, rfl, haddr, ?_, frame_setI s _⟩
  rw [State.setI_i, haddr]
  omega

end Sys2Proof.Proofs
end

section
/-!
What the host's operations do (48_host_operations.md): the guard of R210 and the end of an operation that may fault, one
lemma per operation, and that no schedule leaves the invariants.
-/

namespace Sys2Proof.Machine

section
variable {s t : State} {c : Cause}

/-! ### The guard and the latch -/

theorem State.whileRunning_running (h : s.status = .running) (t : State) : s.whileRunning t = t := by
  simp [State.whileRunning, h]

theorem State.whileRunning_faulted (h : s.status = .faulted c) (t : State) : s.whileRunning t = s := by
  simp [State.whileRunning, h]

@[simp] theorem State.commitHost_ok (s t : State) : s.commitHost (.ok t) = t := rfl

@[simp] theorem State.commitHost_error (s : State) (c : Cause) : s.commitHost (.error c) = s.raise c := rfl

theorem step_eq_hostStep (s : State) : step s = .next s.hostStep := by
  obtain ⟨t, ht⟩ := Proofs.stepIsTotal s
  simp [State.hostStep, ht]

theorem State.hostStep_faulted (h : s.status = .faulted c) : s.hostStep = s := by
  simp [State.hostStep, step_faulted h]

/-! ### One operation each -/

theorem State.hostLoadImage_fits {bytes : List Byte} (hrun : s.status = .running)
    (h : s.params.loadOffset + bytes.length ≤ s.params.memSize) :
    s.hostLoadImage bytes = s.writeBytes s.params.loadOffset bytes := by
  rw [State.hostLoadImage, State.whileRunning_running hrun, if_neg (by omega), State.commitHost_ok]

theorem State.hostLoadImage_tooLarge {bytes : List Byte} (hrun : s.status = .running)
    (h : s.params.memSize < s.params.loadOffset + bytes.length) :
    s.hostLoadImage bytes = s.raise (.imageTooLarge bytes.length) := by
  rw [State.hostLoadImage, State.whileRunning_running hrun, if_pos h, State.commitHost_error]

theorem countDown_toNat (b : Byte) : (countDown b).toNat = b.toNat - 1 := by
  by_cases hb : b = 0
  · simp [countDown, hb]
  · rw [countDown, if_neg hb, Byte.toNat_pred hb]

theorem State.setKey_inRange {k : Nat} (h : k < 16) (down : Bool) :
    s.setKey k down = .ok { s with keys := s.keys.set k down } := dif_pos h

theorem State.setKey_outOfRange {k : Nat} (h : 15 < k) (down : Bool) :
    s.setKey k down = .error (.keyIndexOutOfRange k) := dif_neg (by omega)

section
variable {x y : Nat}

theorem State.onDisplay_true (hx : x < s.params.displayW) (hy : y < s.params.displayH) : s.onDisplay x y = true := by
  simp [State.onDisplay, hx, hy]

theorem State.onDisplay_false (h : s.params.displayW ≤ x ∨ s.params.displayH ≤ y) : s.onDisplay x y = false := by
  simpa [State.onDisplay, imp_iff_not_or] using h

theorem State.pixel_on (h : s.onDisplay x y = true) : s.pixel x y = some (s.fb.cell y x) := if_pos h

theorem State.pixel_off (h : s.onDisplay x y = false) : s.pixel x y = none := by simp [State.pixel, h]

theorem State.hostPixel_on (h : s.onDisplay x y = true) : s.hostPixel x y = s := if_pos h

theorem State.hostPixel_off (hrun : s.status = .running) (h : s.onDisplay x y = false) :
    s.hostPixel x y = s.raise (.displayCoordinateOutOfRange x y) := by
  simp [State.hostPixel, h, State.whileRunning_running hrun]

end

/-! ### What the operations other than RESET and STEP may edit -/

/-- From `s` to `t` all that the invariants speak of is kept, but for the bytes of memory, whose canonical form is kept. -/
structure HostEdit (s t : State) : Prop where
  params : t.params = s.params
  memory : Memory.wf s.params s.mem → Memory.wf s.params t.mem
  pc : t.pc = s.pc
  sp : t.sp = s.sp
  stack : t.stack = s.stack
  fb : t.fb = s.fb

theorem HostEdit.refl (s : State) : HostEdit s s := ⟨rfl, id, rfl, rfl, rfl, rfl⟩

theorem hostEdit_raise (s : State) (c : Cause) : HostEdit s (s.raise c) := ⟨rfl, id, rfl, rfl, rfl, rfl⟩

theorem HostEdit.whileRunning (h : HostEdit s t) : HostEdit s (s.whileRunning t) := by
  cases hs : s.status with
  | running => rwa [State.whileRunning_running hs]
  | faulted c => rw [State.whileRunning_faulted hs]; exact .refl s

/-- Taking the fault is an edit, so only a success is left to be one. -/
theorem hostEdit_commitHost {r : Except Cause State} (h : ∀ t, r = .ok t → HostEdit s t) :
    HostEdit s (s.commitHost r) := by
  cases r with
  | ok t => exact h t rfl
  | error c => exact hostEdit_raise s c

/-- The fit is checked first, so an image is written inside memory (R202). -/
theorem hostEdit_loadImage (s : State) (bytes : List Byte) : HostEdit s (s.hostLoadImage bytes) := by
  refine .whileRunning (hostEdit_commitHost fun t ht => ?_)
  split_ifs at ht with hfit
  cases ht
  exact ⟨s.writeBytes_params _ _, fun hm => State.wf_writeBytes hm (by omega), s.writeBytes_pc _ _, s.writeBytes_sp _ _,
    s.writeBytes_stack _ _, s.writeBytes_fb _ _⟩

theorem hostEdit_tick (s : State) : HostEdit s s.hostTick := .whileRunning ⟨rfl, id, rfl, rfl, rfl, rfl⟩

theorem hostEdit_setKey (s : State) (k : Nat) (down : Bool) :
    HostEdit s (s.whileRunning (s.commitHost (s.setKey k down))) := by
  refine .whileRunning (hostEdit_commitHost fun t ht => ?_)
  rw [State.setKey] at ht
  split_ifs at ht
  cases ht
  exact ⟨rfl, id, rfl, rfl, rfl, rfl⟩

theorem hostEdit_pixel (s : State) (x y : Nat) : HostEdit s (s.hostPixel x y) := by
  rw [State.hostPixel]
  split_ifs
  · exact .refl s
  · exact (hostEdit_raise s _).whileRunning

/-- Everything a host operation can do: reset, one step, or an edit. -/
theorem hostApply_cases (op : HostOp) (s : State) :
    hostApply op s = s.hostReset ∨ step s = .next (hostApply op s) ∨ HostEdit s (hostApply op s) := by
  cases op with
  | reset => exact .inl rfl
  | step => exact .inr (.inl (step_eq_hostStep s))
  | loadImage bytes => exact .inr (.inr (hostEdit_loadImage s bytes))
  | tick => exact .inr (.inr (hostEdit_tick s))
  | keyPress k => exact .inr (.inr (hostEdit_setKey s k true))
  | keyRelease k => exact .inr (.inr (hostEdit_setKey s k false))
  | pixel x y => exact .inr (.inr (hostEdit_pixel s x y))
  | debugRead => exact .inr (.inr (.refl s))

/-! ### The invariants along a schedule -/

theorem State.Inv.hostReset (hs : s.Inv) : s.hostReset.Inv :=
  have h := resetOf_inv hs.params
  ⟨h.params, h.memory, h.spBound, h.stackSize, h.rows, h.columns⟩

theorem State.Inv.hostReset_pcInv (hs : s.Inv) : s.hostReset.PcInv :=
  have h := resetOf_pcInv hs.params
  ⟨h.pc, h.returns⟩

theorem HostEdit.inv (h : HostEdit s t) (hs : s.Inv) : t.Inv := by
  obtain ⟨hparams, hmemory, -, hsp, hstack, hfb⟩ := h
  constructor <;> rw [hparams]
  · exact hs.params
  · exact hmemory hs.memory
  · exact hsp ▸ hs.spBound
  · exact hstack ▸ hs.stackSize
  · exact hfb ▸ hs.rows
  · exact hfb ▸ hs.columns

theorem HostEdit.pcInv (h : HostEdit s t) (hs : s.PcInv) : t.PcInv := by
  constructor <;> rw [h.params]
  · exact h.pc ▸ hs.pc
  · exact h.stack ▸ hs.returns

theorem hostApply_keeps_inv (op : HostOp) (hs : s.Inv) : (hostApply op s).Inv := by
  rcases hostApply_cases op s with hreset | hstep | hedit
  · exact hreset ▸ hs.hostReset
  · exact step_keeps_inv hs hstep
  · exact hedit.inv hs

theorem hostApply_keeps_pcInv (op : HostOp) (hs : s.Inv) (hpc : s.PcInv) : (hostApply op s).PcInv := by
  rcases hostApply_cases op s with hreset | hstep | hedit
  · exact hreset ▸ hs.hostReset_pcInv
  · exact step_keeps_pcInv hs hpc hstep
  · exact hedit.pcInv hpc

end

/-! ### A latched fault -/

/-- While a fault is latched no operation but RESET changes anything (R210). -/
theorem hostApply_faulted {s : State} {c : Cause} (h : s.status = .faulted c) {op : HostOp} (hop : op ≠ .reset) :
    hostApply op s = s := by
  cases op with
  | reset => exact absurd rfl hop
  | step => exact State.hostStep_faulted h
  | loadImage | tick | keyPress | keyRelease => exact State.whileRunning_faulted h _
  | pixel x y =>
    rw [hostApply, State.hostPixel, State.whileRunning_faulted h, ite_self]
  | debugRead => rfl

end Sys2Proof.Machine

namespace Sys2Proof.Proofs
open Sys2Proof.Machine

/-- Settles O20, by induction on the schedule: each operation is a reset, a step, or an edit of what no invariant names. -/
theorem hostRunsKeepInvariants : Obligations.HostRunsKeepInvariants := by
  intro ops
  induction ops with
  | nil => exact fun s hs => ⟨hs, id⟩
  | cons op ops ih =>
    intro s hs
    obtain ⟨hinv, hpcInv⟩ := ih (hostApply op s) (hostApply_keeps_inv op hs)
    exact ⟨hinv, fun hpc => hpcInv (hostApply_keeps_pcInv op hs hpc)⟩

/-- Settles O56: an image that fits is a block write at `LOAD_OFFSET`, one that does not only latches its fault. -/
theorem loadImageCopies : Obligations.LoadImageCopies := by
  intro bytes s hrun
  refine ⟨fun hfit => ?_, State.hostLoadImage_tooLarge hrun⟩
  rw [hostApply, State.hostLoadImage_fits hrun hfit]
  refine ⟨fun j hj => ?_, frame_writeBytes s _ rfl⟩
  rw [s.byte_writeBytes_add _ hj, List.getD_eq_getElem _ _ hj]

/-- Settles O57: a running machine counts both timers down, to 0 at the least. -/
theorem tickCountsDown : Obligations.TickCountsDown := by
  intro s hrun
  have htick : hostApply .tick s = { s with dt := countDown s.dt, st := countDown s.st } :=
    State.whileRunning_running hrun _
  rw [htick]
  exact ⟨countDown_toNat s.dt, countDown_toNat s.st, rfl⟩

/-- Settles O58, by what `setKey` answers inside and outside `0 .. 15`. -/
theorem keyEventsSetOneBit : Obligations.KeyEventsSetOneBit := by
  intro k s hrun
  have hkey (down : Bool) : s.whileRunning (s.commitHost (s.setKey k down)) = s.commitHost (s.setKey k down) :=
    State.whileRunning_running hrun _
  refine ⟨fun hk => ?_, fun hk => ?_⟩
  · have hset (down : Bool) := (hkey down).trans (congrArg s.commitHost (State.setKey_inRange hk down))
    exact ⟨hset true, hset false⟩
  · have hfault (down : Bool) := (hkey down).trans (congrArg s.commitHost (State.setKey_outOfRange hk down))
    exact ⟨hfault true, hfault false⟩

/-- Settles O59: inside the display the cell whatever the status; outside, the status decides state and report (D34). -/
theorem pixelReads : Obligations.PixelReads := by
  intro x y s
  refine ⟨fun hx hy => ?_, fun hout => ⟨fun hrun => ?_, fun c hc => ?_⟩⟩
  · have hon := State.onDisplay_true hx hy
    exact ⟨by simp [hostReport, State.pixel_on hon], State.hostPixel_on hon⟩
  · have hoff := State.onDisplay_false hout
    exact ⟨State.hostPixel_off hrun hoff, by simp [hostReport, State.pixel_off hoff, hrun]⟩
  · have hoff := State.onDisplay_false hout
    exact ⟨hostApply_faulted hc nofun, by simp [hostReport, State.pixel_off hoff, hc]⟩

/-- Settles O60: the guard of R210 leaves the state, so the report is of the latch that was there. -/
theorem faultIsSticky : Obligations.FaultIsSticky := by
  intro s c hc
  have hreport {op : HostOp} (hop : op ≠ .reset) : (hostApply op s).status.report = .fault c := by
    rw [hostApply_faulted hc hop, hc]
    rfl
  refine ⟨step_faulted hc, fun op => hostApply_faulted hc, ?_, rfl⟩
  rintro op (rfl | rfl | ⟨k, rfl⟩ | ⟨k, rfl⟩ | ⟨bytes, rfl⟩) <;> exact hreport nofun

end Sys2Proof.Proofs
end

section
/-!
What a step latches (60_exceptions.md R230, R240), and the step of a finished program (48_host_operations.md R212).
-/

namespace Sys2Proof.Machine

section
variable {s t : State} {c : Cause}

/-- An instruction that runs to a latched fault has done nothing else, and the cause is of its row. -/
theorem exec_latches {i : Instr} (hrun : s.status = .running) (h : exec i s = .next t) (hc : t.status = .faulted c) :
    i.mayRaise c = true ∧ t = s.raise c := by
  rcases exec_allows h with hframe | ⟨c', hraise, rfl⟩
  · rw [hframe.status, hrun] at hc
    cases hc
  · cases hc
    exact ⟨hraise, rfl⟩

/-- The two ways a step latches a fault: the fetch leaves memory, or after a good fetch the instruction faults. -/
theorem step_latches (hrun : s.status = .running) (h : step s = .next t) (hc : t.status = .faulted c) :
    (s.params.memSize ≤ s.pc.toNat + 1 ∧ (∃ a, c = .memoryOutOfBounds a) ∧ t = s.raise c) ∨
    (s.pc.toNat + 1 < s.params.memSize ∧ (∃ w, s.fetch = .ok w ∧ (decode w).mayRaise c = true) ∧
      t = s.advance.raise c) := by
  by_cases hin : s.pc.toNat + 1 < s.params.memSize
  · have hfetch := s.fetch_eq.trans (if_pos hin)
    obtain ⟨hraise, ht⟩ := exec_latches (s := s.advance) hrun ((step_fetched hrun hfetch).symm.trans h) hc
    exact .inr ⟨hin, ⟨_, hfetch, hraise⟩, ht⟩
  · cases (step_outside hrun (not_lt.1 hin)).symm.trans h
    cases hc
    exact .inl ⟨not_lt.1 hin, ⟨_, rfl⟩, rfl⟩

end

/-- Causes 5 and 6 are the host's own: no row of R230 names them for an instruction. -/
theorem code_of_mayRaise {i : Instr} {c : Cause} (h : i.mayRaise c = true) :
    c.code = 1 ∨ c.code = 2 ∨ c.code = 3 ∨ c.code = 4 := by
  cases c with
  | displayCoordinateOutOfRange | imageTooLarge => cases i <;> cases h
  | _ => simp [Cause.code]

/-! ### The step of a finished program -/

/-- A word whose digits are 1 and a twelve-bit address is the jump there (R94). -/
theorem decode_of_jp_toNat {w : Word} {nnn : Addr} (h : w.toNat = 0x1000 + nnn.toNat) : decode w = .jp nnn := by
  have hw : w = encode (.jp nnn) := by
    apply word_eq_of_toNat
    rw [h, encode, wordNNN_toNat]
    rfl
  rw [hw, decode_encode (.jp nnn) rfl]

/-- Below 4096 an address fits the field of a jump. -/
theorem setWidth_addr_toNat {a : Word} (h : a.toNat < 4096) : (a.setWidth 12).toNat = a.toNat := by
  rw [BitVec.toNat_setWidth, Nat.mod_eq_of_lt h]

end Sys2Proof.Machine

namespace Sys2Proof.Proofs
open Sys2Proof.Machine

/-- Settles O13, by the two ways a step latches: only after a good fetch has `pc` been incremented. -/
theorem faultsArePrecise : Obligations.FaultsArePrecise := by
  intro s t c hrun h hc
  rcases step_latches hrun h hc with ⟨hout, -, ht⟩ | ⟨hin, -, ht⟩
  · exact ⟨fun hin => by omega, fun _ => ht⟩
  · exact ⟨fun _ => ht, fun hout => by omega⟩

/-- Settles O14, by the two ways a step latches. -/
theorem stepRaisesOnlyItsCauses : Obligations.StepRaisesOnlyItsCauses := by
  intro s t c hrun h hc
  rcases step_latches hrun h hc with ⟨hout, ⟨a, rfl⟩, -⟩ | ⟨-, ⟨w, hfetch, hraise⟩, -⟩
  · exact ⟨.inl rfl, .inl ⟨a, rfl, hout⟩⟩
  · exact ⟨code_of_mayRaise hraise, .inr ⟨w, hfetch, hraise⟩⟩

/-- Settles O17: `Inv` keeps `pc` below 4096, so the word there is the jump to `pc`, which undoes the increment. -/
theorem finishedProgramStays : Obligations.FinishedProgramStays := by
  intro s hs ⟨hrun, hin, hword⟩
  obtain ⟨hmem, _⟩ := Params.bounds hs.params
  have hpc : s.pc.toNat < 4096 := by omega
  have hfetch := s.fetch_eq.trans (if_pos hin)
  have hjump : decode (wordOfBytes (s.byte s.pc.toNat) (s.byte (s.pc.toNat + 1))) = .jp (s.pc.setWidth 12) :=
    decode_of_jp_toNat (by rw [wordOfBytes_toNat, hword, setWidth_addr_toNat hpc])
  have htarget : addrWord (s.pc.setWidth 12) = s.pc :=
    BitVec.eq_of_toNat_eq ((addrWord_toNat _).trans (setWidth_addr_toNat hpc))
  calc step s = exec (.jp (s.pc.setWidth 12)) s.advance := by rw [step_fetched hrun hfetch, hjump]
    _ = .next (s.advance.jump (addrWord (s.pc.setWidth 12))) := rfl
    _ = .next s := by rw [htarget]; rfl

end Sys2Proof.Proofs
end
